-- ==== Sys2Proof/Word.lean ====
section
/-!
DEFINITION. The block's data types: bytes, `BUF` addresses, packets, and the fixed-size byte arrays of the
commands (00_scope.md R7, R10). Every quantity is unsigned.
-/

namespace Sys2Proof

/-- A byte is 8 bits (R7). -/
abbrev Byte := BitVec 8

/-- A `BUF` address is 32 bits wide; one address names one byte (R31). -/
abbrev Addr := BitVec 32

/-- A packet of `CMD` or `RSP`: a byte array delivered whole (R45, R57). -/
abbrev Packet := List Byte

/-- An Ethernet address: six bytes, first byte first (R50). -/
abbrev MacAddr := Vector Byte 6

/-- An IPv4 address: four bytes, the first octet of the dotted form first (R52). -/
abbrev IpAddr := Vector Byte 4

/-- An IPv4 header: twenty bytes (R48). -/
abbrev IpHeader := Vector Byte 20

/-- One byte write on `BUF`: the address and the byte (R10 `Writes`). -/
abbrev BufWrite := Addr × Byte

end Sys2Proof
end

