-- ==== Sys2Proof/Machine/Operands.lean ====
section
/-!
DEFINITION. Byte arrays and the integers in them: the pure helper functions of 00_scope.md R9 (`u16`, `be16`,
`be32`, `be64`), the operand assembly of 30_encoding.md R58, and the two operations on a byte array that every
rule uses, taking a sub-array and overwriting one (R7, R8).
-/

namespace Sys2Proof.Machine

/-- R9 `u16(b0, b1)`: the first byte is the most significant. -/
def u16 (b0 b1 : Byte) : BitVec 16 := b0 ++ b1

/-- R58 `u32`: four bytes, most significant first. -/
def u32 (b0 b1 b2 b3 : Byte) : BitVec 32 := u16 b0 b1 ++ u16 b2 b3

/-- R58 `u64`: eight bytes, most significant first. -/
def u64 (b0 b1 b2 b3 b4 b5 b6 b7 : Byte) : BitVec 64 := u32 b0 b1 b2 b3 ++ u32 b4 b5 b6 b7

/-- R9 `be16`: two bytes, most significant first. -/
def be16 (v : BitVec 16) : Vector Byte 2 := #v[v.extractLsb' 8 8, v.extractLsb' 0 8]

/-- R9 `be32`: four bytes, most significant first. -/
def be32 (v : BitVec 32) : Vector Byte 4 :=
  #v[v.extractLsb' 24 8, v.extractLsb' 16 8, v.extractLsb' 8 8, v.extractLsb' 0 8]

/-- R9 `be64`: eight bytes, most significant first. -/
def be64 (v : BitVec 64) : Vector Byte 8 :=
  #v[v.extractLsb' 56 8, v.extractLsb' 48 8, v.extractLsb' 40 8, v.extractLsb' 32 8,
     v.extractLsb' 24 8, v.extractLsb' 16 8, v.extractLsb' 8 8, v.extractLsb' 0 8]

/-- Byte `i` of a packet. The decoder has checked the length before it reads, so the `0` that stands for a byte
past the end is never an operand's. -/
def byteAt (p : Packet) (i : Nat) : Byte := p.getD i 0

/-- A byte-array operand: `n` packet bytes from position `a`, in packet order (R58). -/
def bytesAt (p : Packet) (a n : Nat) : Vector Byte n := Vector.ofFn fun k => byteAt p (a + k)

/-- A `u16` operand at packet bytes `a .. a+1` (R58). -/
def u16At (p : Packet) (a : Nat) : BitVec 16 := u16 (byteAt p a) (byteAt p (a + 1))

/-- A `u32` operand at packet bytes `a .. a+3` (R58). -/
def u32At (p : Packet) (a : Nat) : BitVec 32 :=
  u32 (byteAt p a) (byteAt p (a + 1)) (byteAt p (a + 2)) (byteAt p (a + 3))

/-- A `u64` operand at packet bytes `a .. a+7` (R58). -/
def u64At (p : Packet) (a : Nat) : BitVec 64 :=
  u64 (byteAt p a) (byteAt p (a + 1)) (byteAt p (a + 2)) (byteAt p (a + 3))
    (byteAt p (a + 4)) (byteAt p (a + 5)) (byteAt p (a + 6)) (byteAt p (a + 7))

/-- `t[a .. a+len-1]` (R7). -/
def slice {n : Nat} (t : Vector Byte n) (a len : Nat) (h : a + len ≤ n) : Vector Byte len :=
  Vector.ofFn fun k => t[a + k.val]'(by omega)

/-- `t[a .. a+m-1] <- b` (R8): every other byte keeps its value. -/
def patch {n m : Nat} (t : Vector Byte n) (a : Nat) (b : Vector Byte m) : Vector Byte n :=
  Vector.ofFn fun i => if h : a ≤ i.val ∧ i.val - a < m then b[i.val - a]'h.2 else t[i.val]

end Sys2Proof.Machine
end

