-- ==== Sys2Proof/Syntax.lean ====
section
/-!
DEFINITION. The nineteen commands of `CORE-CMD v1` as a typed syntax (00_scope.md R10 `Cmd`): one constructor
per row of spec/opcode_table.json. The operands carry their sizes in their types, so a wrong-sized operand
cannot be written (R59: "make these compile-time-sized types to eliminate the class entirely (preferred)").
-/

namespace Sys2Proof

/-- A command with its operands, in packet order. -/
inductive Instr where
  /-- R64: the IPv4 header checksum of the twenty bytes `h`. -/
  | cksum (h : IpHeader)
  /-- R70: host to network order, 16 bits. -/
  | hton16 (v : BitVec 16)
  /-- R71: host to network order, 32 bits. -/
  | hton32 (v : BitVec 32)
  /-- R72: host to network order, 64 bits. -/
  | hton64 (v : BitVec 64)
  /-- R73: network to host order, 16 bits. -/
  | ntoh16 (v : BitVec 16)
  /-- R74: network to host order, 32 bits. -/
  | ntoh32 (v : BitVec 32)
  /-- R75: network to host order, 64 bits. -/
  | ntoh64 (v : BitVec 64)
  /-- R81: construct the UDP template. -/
  | ucons
  /-- R82: set both MAC addresses of the UDP template. -/
  | usmac (src dst : MacAddr)
  /-- R83: set the source MAC of the UDP template, destination broadcast. -/
  | usmacb (src : MacAddr)
  /-- R84: set both IPv4 addresses of the UDP template. -/
  | usip (src dst : IpAddr)
  /-- R85: set both ports of the UDP template. -/
  | usport (sport dport : BitVec 16)
  /-- R86: stamp a UDP header at `dest` for `plen` payload bytes. -/
  | uwrhdr (dest : Addr) (plen : BitVec 16)
  /-- R93: construct the RDMX template. -/
  | rcons
  /-- R94: set both MAC addresses of the RDMX template. -/
  | rsmac (src dst : MacAddr)
  /-- R95: set the source MAC of the RDMX template, destination broadcast. -/
  | rsmacb (src : MacAddr)
  /-- R96: set both IPv4 addresses of the RDMX template. -/
  | rsip (src dst : IpAddr)
  /-- R97: set the source port of the RDMX template. -/
  | rsport (sport : BitVec 16)
  /-- R98: stamp an RDMX header at `dest` for `plen` payload bytes and the target address `target`. -/
  | rwrhdr (dest : Addr) (plen : BitVec 16) (target : BitVec 64)
deriving DecidableEq, Repr

end Sys2Proof
end

