-- ==== Sys2Proof/Machine/Encoding.lean ====
section
/-!
DEFINITION. The opcode map of 30_encoding.md R46 as data: for each of the nineteen assigned opcode bytes the
operand format (R47 to R56) and the length of its OK response (R57).
-/

namespace Sys2Proof.Machine

/-- The operand formats of R47 to R56, by the spec's names. -/
inductive Format where
  | n | h | v16 | v32 | v64 | m2 | m1 | a | p2 | p1 | w | wx
deriving DecidableEq, Repr

/-- The packet length of a format, opcode byte included (R47 to R56). -/
def formatLength : Format → Nat
  | .n => 1
  | .h => 21
  | .v16 => 3
  | .v32 => 5
  | .v64 => 9
  | .m2 => 13
  | .m1 => 7
  | .a => 9
  | .p2 => 5
  | .p1 => 3
  | .w => 7
  | .wx => 15

/-- One row of R46. -/
structure OpcodeRow where
  opcode    : Byte
  format    : Format
  rspLength : Nat
deriving DecidableEq, Repr

/-- R46, the complete assignment; every other opcode byte is reserved (R59). -/
def opcodeRows : List OpcodeRow :=
  [⟨0x00, .h, 3⟩,
   ⟨0x10, .v16, 3⟩, ⟨0x11, .v32, 5⟩, ⟨0x12, .v64, 9⟩,
   ⟨0x14, .v16, 3⟩, ⟨0x15, .v32, 5⟩, ⟨0x16, .v64, 9⟩,
   ⟨0x20, .n, 1⟩, ⟨0x21, .m2, 1⟩, ⟨0x22, .m1, 1⟩, ⟨0x23, .a, 1⟩, ⟨0x24, .p2, 1⟩, ⟨0x25, .w, 1⟩,
   ⟨0x30, .n, 1⟩, ⟨0x31, .m2, 1⟩, ⟨0x32, .m1, 1⟩, ⟨0x33, .a, 1⟩, ⟨0x34, .p1, 1⟩, ⟨0x35, .wx, 1⟩]

/-- The row an opcode byte selects, if it is assigned. -/
def opcodeRow (op : Byte) : Option OpcodeRow := opcodeRows.find? fun r => r.opcode == op

/-- The packet length R46 gives an opcode byte, if it is assigned (R62). -/
def opcodeLength (op : Byte) : Option Nat := (opcodeRow op).map fun r => formatLength r.format

end Sys2Proof.Machine
end

