-- ==== Sys2Proof/WellFormed.lean ====
section
/-!
DEFINITION. Well-formedness. A typed command is well-formed by its type: "Every operand value is legal for every
command" (30_encoding.md R59), and the sizes stand in the types of Syntax.lean. What can be ill-formed is a
packet, and these are the three checks of R59 on it, in the order of R107.
-/

namespace Sys2Proof

/-- R59, first check: the packet has an opcode byte. -/
def packetHasOpcode (p : Packet) : Bool := !p.isEmpty

/-- R59, second check: the opcode byte is one of the nineteen assigned ones. -/
def packetOpcodeAssigned (p : Packet) : Bool := (p.head?.bind Machine.opcodeRow).isSome

/-- R59, third check: the packet has the length of its opcode. -/
def packetLengthMatches (p : Packet) : Bool := p.head?.bind Machine.opcodeLength == some p.length

/-- A packet that is a command (R59). -/
def packetWellFormed (p : Packet) : Bool :=
  packetHasOpcode p && packetOpcodeAssigned p && packetLengthMatches p

end Sys2Proof
end

