-- ==== Sys2Proof/Decode.lean ====
section
/-!
DEFINITION. Decoding command packets and encoding commands (30_encoding.md R45 to R59, R62). Decoding is total on
byte arrays and rejects by name; all three rejections are the one exception `ILLEGAL_COMMAND` (R105).
-/

namespace Sys2Proof

open Sys2Proof.Machine

/-- Why a packet is no command (R59, R105). -/
inductive DecodeError where
  /-- The packet holds no byte. -/
  | emptyPacket
  /-- The opcode byte is reserved. -/
  | unassignedOpcode (op : Byte)
  /-- The packet has not the length of its opcode. -/
  | wrongLength (op : Byte) (len : Nat)
deriving DecidableEq, Repr

/-- The typed command of a packet whose length is right, its operands at the byte positions of R47 to R56;
none for a reserved opcode byte. -/
def assembleCmd (op : Byte) (p : Packet) : Option Instr :=
  match op.toNat with
  | 0x00 => some (.cksum (bytesAt p 1 20))
  | 0x10 => some (.hton16 (u16At p 1))
  | 0x11 => some (.hton32 (u32At p 1))
  | 0x12 => some (.hton64 (u64At p 1))
  | 0x14 => some (.ntoh16 (u16At p 1))
  | 0x15 => some (.ntoh32 (u32At p 1))
  | 0x16 => some (.ntoh64 (u64At p 1))
  | 0x20 => some .ucons
  | 0x21 => some (.usmac (bytesAt p 1 6) (bytesAt p 7 6))
  | 0x22 => some (.usmacb (bytesAt p 1 6))
  | 0x23 => some (.usip (bytesAt p 1 4) (bytesAt p 5 4))
  | 0x24 => some (.usport (u16At p 1) (u16At p 3))
  | 0x25 => some (.uwrhdr (u32At p 1) (u16At p 5))
  | 0x30 => some .rcons
  | 0x31 => some (.rsmac (bytesAt p 1 6) (bytesAt p 7 6))
  | 0x32 => some (.rsmacb (bytesAt p 1 6))
  | 0x33 => some (.rsip (bytesAt p 1 4) (bytesAt p 5 4))
  | 0x34 => some (.rsport (u16At p 1))
  | 0x35 => some (.rwrhdr (u32At p 1) (u16At p 5) (u64At p 7))
  | _ => none

/-- R59 `decode`, checking emptiness, then the opcode byte, then the length (R107). -/
def decode (p : Packet) : Except DecodeError Instr :=
  match p with
  | [] => .error .emptyPacket
  | op :: _ =>
    match opcodeLength op, assembleCmd op p with
    | some n, some i => if p.length = n then .ok i else .error (.wrongLength op p.length)
    | _, _ => .error (.unassignedOpcode op)

/-- The packet of a command: the opcode byte of R46, then the operands in the order of R47 to R56, integers
big-endian and byte arrays verbatim (R58). -/
def encode : Instr → Packet
  | .cksum h => 0x00 :: h.toList
  | .hton16 v => 0x10 :: (be16 v).toList
  | .hton32 v => 0x11 :: (be32 v).toList
  | .hton64 v => 0x12 :: (be64 v).toList
  | .ntoh16 v => 0x14 :: (be16 v).toList
  | .ntoh32 v => 0x15 :: (be32 v).toList
  | .ntoh64 v => 0x16 :: (be64 v).toList
  | .ucons => [0x20]
  | .usmac src dst => 0x21 :: (src.toList ++ dst.toList)
  | .usmacb src => 0x22 :: src.toList
  | .usip src dst => 0x23 :: (src.toList ++ dst.toList)
  | .usport sport dport => 0x24 :: ((be16 sport).toList ++ (be16 dport).toList)
  | .uwrhdr dest plen => 0x25 :: ((be32 dest).toList ++ (be16 plen).toList)
  | .rcons => [0x30]
  | .rsmac src dst => 0x31 :: (src.toList ++ dst.toList)
  | .rsmacb src => 0x32 :: src.toList
  | .rsip src dst => 0x33 :: (src.toList ++ dst.toList)
  | .rsport sport => 0x34 :: (be16 sport).toList
  | .rwrhdr dest plen target =>
    0x35 :: ((be32 dest).toList ++ (be16 plen).toList ++ (be64 target).toList)

/-- The packet of a table word: bit 0 of `w` is the least significant bit of the opcode byte, and byte `k` of
the packet is bits `8k+7 .. 8k`. The packet has the length of its opcode (the transport delivers whole packets,
R45), the bytes above `nbits` zero; it is longer only where `nbits` is. -/
def tablePacket (nbits w : Nat) : Packet :=
  let v := w % 2 ^ nbits
  let len := max ((nbits + 7) / 8) ((opcodeLength (BitVec.ofNat 8 v)).getD 1)
  (List.range len).map fun k => BitVec.ofNat 8 (v >>> (8 * k))

/-- The command the decoder reads from a table word. -/
def decodeTableWord (nbits w : Nat) : Option Instr := (decode (tablePacket nbits w)).toOption

end Sys2Proof
end

