-- ==== Sys2Proof/Config.lean ====
section
/-!
DEFINITION. The build-time parameters of the block (00_scope.md R5), the platform's map of `BUF`, and the free
values: what the spec leaves open although the machine goes on.
-/

namespace Sys2Proof

/-- What backs a range of `BUF` addresses. The spec knows `buf_admits` (backed by storage or not, R38); the
kind `device` names the range of R36's last sentence, whose effect is the platform's. -/
inductive BufKind where
  | storage
  | device
deriving DecidableEq, Repr

/-- A range of `BUF` addresses, `base .. base + size - 1`, and what backs it. -/
structure Region where
  base : Nat
  size : Nat
  kind : BufKind
deriving DecidableEq, Repr

/-- The parameters of R5. No command reads a default, writes a parameter or changes one. `bufMap` is the
parameter `buf_admits` as plain data: an address is backed by the first region that contains it, and an address
in no region is not backed (assumption 2). -/
structure Config where
  hostBigEndian : Bool
  ipId          : BitVec 16
  rdmxMagic     : BitVec 16
  rdmxDstPort   : BitVec 16
  bufMap        : List Region
deriving DecidableEq, Repr

/-- The defaults of R5 (placeholders of the spec, `CFG0` of 95_test_vectors.md); for `buf_admits`, which R5
leaves to the platform, all of `BUF` is storage. DESIGN CHOICE (assumption 3): no statement rests on them. -/
def Config.default : Config where
  hostBigEndian := false
  ipId          := 0x0000
  rdmxMagic     := 0x5244
  rdmxDstPort   := 0x2710
  bufMap        := [⟨0, 0x100000000, .storage⟩]

/-- Free value: whether byte `k` of a stamp that `RESET` interrupted had reached `BUF`, at the `d`-th draw
(R118: "any subset of its byte writes may have reached `BUF`"). No body: nothing constrains it. -/
opaque Config.freeReached (d k : Nat) : Bool

/-- Free value: whether, at the `d`-th draw, the racing write of another agent to address `a` is the one that
stays (R37: "the final byte is either one"). No body: nothing constrains it. -/
opaque Config.freeAgentWins (d : Nat) (a : Addr) : Bool

end Sys2Proof
end

