-- ==== Sys2Proof/Machine/Template.lean ====
section
/-!
DEFINITION. The two header templates: their sizes and layout (10_state.md R13 to R17) and the default images that
construct and reset load (R20, R21).
-/

namespace Sys2Proof.Machine

/-- R14: 14 + 20 + 8 bytes. -/
abbrev TemplateU := Vector Byte 42

/-- R14: 42 + 22 bytes. -/
abbrev TemplateR := Vector Byte 64

/-- The broadcast MAC address (R15, R83). -/
def broadcastMac : MacAddr := Vector.replicate 6 0xFF

/-- Bytes 0..13: destination MAC broadcast, source MAC zero, EtherType 0x0800 (R15). -/
def defaultEthernet : List Byte := [0xFF, 0xFF, 0xFF, 0xFF, 0xFF, 0xFF, 0, 0, 0, 0, 0, 0, 0x08, 0x00]

/-- Bytes 14..33: version and header length, DSCP, total length, identification, flags "don't fragment" (the
value `40 00` is the spec's own, from general knowledge: G1), TTL, protocol, checksum, two addresses (R15). -/
def defaultIpv4 (c : Config) : List Byte :=
  [0x45, 0x00, 0, 0, (be16 c.ipId)[0], (be16 c.ipId)[1], 0x40, 0x00, 0x40, 0x11, 0, 0, 0, 0, 0, 0, 0, 0, 0, 0]

/-- Bytes 34..41: source port, destination port, length, checksum (R15, R16). -/
def defaultUdp (dport : BitVec 16) : List Byte := [0, 0, (be16 dport)[0], (be16 dport)[1], 0, 0, 0, 0]

/-- Bytes 42..63: the magic, the target address, twelve reserved bytes (R16). -/
def defaultExtension (c : Config) : List Byte :=
  [(be16 c.rdmxMagic)[0], (be16 c.rdmxMagic)[1], 0, 0, 0, 0, 0, 0, 0, 0, 0, 0, 0, 0, 0, 0, 0, 0, 0, 0, 0, 0]

/-- `DEFAULT_U` (R20). -/
def defaultU (c : Config) : TemplateU :=
  ⟨(defaultEthernet ++ defaultIpv4 c ++ defaultUdp 0).toArray, rfl⟩

/-- `DEFAULT_R` (R21). -/
def defaultR (c : Config) : TemplateR :=
  ⟨(defaultEthernet ++ defaultIpv4 c ++ defaultUdp c.rdmxDstPort ++ defaultExtension c).toArray, rfl⟩

end Sys2Proof.Machine
end

