-- ==== Sys2Proof/Machine/State.lean ====
section
/-!
DEFINITION. The state. The block's own state is the two templates and nothing else (10_state.md R13, R26 to R30).
Beside it stand what the block is built with (`cfg`, constant), the space it writes (`buf`, the platform's: R29),
the two streams of its transaction interface (`cmd`, `rsp`: 92_eei_decisions.md D1), and the model's own counter
of free values (`draws`).
-/

namespace Sys2Proof.Machine

/-- The contents of `BUF`: the bytes whose value is known, at strictly rising addresses. An address that is not
listed holds what the platform left there; the model knows no value for it (assumption 5). -/
abbrev Memory := List Host.Cell

/-- What reaches the block from outside, and what other agents do to `BUF` (70_reset_and_hazards.md R126). -/
inductive Input where
  /-- One packet on `CMD`, delivered whole, with no other agent in the destination range until the response
  (R45, R120). -/
  | packet (p : Packet)
  /-- A packet during which other agents write `BUF`, in this order, between its arrival and its response
  (R37: a race wherever they meet the stamp). -/
  | packetRacing (p : Packet) (agents : List BufWrite)
  /-- A packet that `RESET` abandons after it was accepted and before its response, with the `BUF` writes other
  agents make meanwhile (R118). -/
  | packetReset (p : Packet) (agents : List BufWrite)
  /-- `RESET` while no command is in progress (R117). -/
  | reset
  /-- A `BUF` write of the host or another agent while no command is in progress, such as a payload byte (R126). -/
  | agentWrite (w : BufWrite)
deriving DecidableEq, Repr

/-- The machine. -/
structure State where
  /-- The build-time parameters (R5): no step changes them. -/
  cfg   : Config
  /-- The UDP header template `TU` (R13, R15). -/
  tu    : TemplateU
  /-- The RDMX header template `TR` (R13, R16). -/
  tr    : TemplateR
  /-- The byte-addressed space `BUF` (R31). -/
  buf   : Memory
  /-- What is still to arrive, first to come first. -/
  cmd   : List Input
  /-- The response packets sent on `RSP`, first sent first (R57). -/
  rsp   : List Packet
  /-- How many free values have been drawn: the model's own field. -/
  draws : Nat
deriving DecidableEq, Repr

/-- Why the machine is stuck. No command of the block raises a fault of its own (R105: the one exception,
`ILLEGAL_COMMAND`, is a next state). -/
inductive Fault where
  /-- A write of `BUF` to an address with `buf_admits` false: "The effect of a byte write to an address with
  `buf_admits = false` is outside this spec; a model gives such a stamp no step or refuses it" (R38). Raised by
  the stamps `UWRHDR` and `RWRHDR` and by writes of other agents. Safe: the hardware goes on, the model stops. -/
  | unbackedBuf
deriving DecidableEq, Repr

/-- What the model gives no meaning. -/
inductive Refusal where
  /-- An instruction without a meaning yet, by its mnemonic; raised by `exec` alone. Safe: the model stops. -/
  | notModelled (mnemonic : String)
  /-- A write of `BUF` to a device the platform maps there: "the effect is the platform's" (R36; U16: "refuse
  unless the platform model defines it"). Raised by the stamps and by writes of other agents. Safe: the model
  stops. -/
  | deviceWrite
deriving DecidableEq, Repr

/-- The reset state of a block built with the parameters `c` (R22, R117): both templates hold their default
images, nothing has arrived and nothing was answered. `buf` lists nothing: "its contents after reset are
whatever the platform holds". -/
def State.resetOf (c : Config) : State where
  cfg   := c
  tu    := defaultU c
  tr    := defaultR c
  buf   := []
  cmd   := []
  rsp   := []
  draws := 0

/-- The reset state of the block built with the defaults of R5. -/
def State.reset : State := State.resetOf Config.default

end Sys2Proof.Machine
end

