-- ==== Sys2Proof/Machine/Ops.lean ====
section
/-!
DEFINITION. The named operations the commands are made of: the accessors of State, responding and rejecting
(30_encoding.md R57, 60_exceptions.md R105), reset (R117), and the writes of `BUF` (20_memory.md R31 to R43).
-/

namespace Sys2Proof.Machine

/-! The accessors: one per field that a step writes. -/

def State.setTu (t : TemplateU) (s : State) : State := { s with tu := t }

def State.setTr (t : TemplateR) (s : State) : State := { s with tr := t }

def State.setBuf (m : Memory) (s : State) : State := { s with buf := m }

def State.setCmd (q : List Input) (s : State) : State := { s with cmd := q }

/-- Send one response packet after those already sent (R42 c, R57). -/
def State.send (q : Packet) (s : State) : State := { s with rsp := s.rsp ++ [q] }

/-- A free value was drawn. -/
def State.countDraw (s : State) : State := { s with draws := s.draws + 1 }

/-! Responses and the one exception. -/

/-- R8 `respond(A)`: the status byte OK and the result. -/
def State.respond (result : List Byte) (s : State) : State := s.send (0x00 :: result)

/-- R105: taking the one exception, `ILLEGAL_COMMAND`. Its whole effect is the response packet `01`: no state is
saved, no mode changes and there is no handler (R109). There is no return from it: the next packet is decoded as
if the illegal one had not been sent (R110). -/
def State.raiseIllegal (s : State) : State := s.send [0x01]

/-- R117: what `RESET` does to the block. `BUF`, the parameters and the responses already sent stay (R22). -/
def State.resetBlock (s : State) : State := (s.setTu (defaultU s.cfg)).setTr (defaultR s.cfg)

/-! `BUF`. -/

/-- The byte known at an address; none where nothing has been written (assumption 5). -/
def Memory.read : Memory → Nat → Option Byte
  | [], _ => none
  | c :: m, a => if a = c.1 then some c.2 else Memory.read m a

/-- Write one byte, keeping the addresses strictly rising. -/
def Memory.write : Memory → Nat → Byte → Memory
  | [], a, b => [(a, b)]
  | c :: m, a, b =>
    if a < c.1 then (a, b) :: c :: m
    else if a = c.1 then (a, b) :: m
    else c :: Memory.write m a b

/-- The canonical form: strictly rising addresses, all of them in the 32-bit space. Since an unlisted address
reads as no value, no entry equals what an unlisted address reads as. -/
abbrev Memory.wf (m : Memory) : Prop := m.Pairwise (fun c d => c.1 < d.1) ∧ ∀ c ∈ m, c.1 < 2 ^ 32

/-- Perform byte writes one after the other. -/
def Memory.writeAll (m : Memory) (ws : List BufWrite) : Memory :=
  ws.foldl (fun m w => Memory.write m w.1.toNat w.2) m

/-- The byte known at a `BUF` address. -/
def readBuf (s : State) (a : Addr) : Option Byte := Memory.read s.buf a.toNat

/-- Whether a region holds an address. -/
def regionHolds (r : Region) (a : Addr) : Bool := r.base ≤ a.toNat && a.toNat < r.base + r.size

/-- What backs an address, if anything does. -/
def bufKind (c : Config) (a : Addr) : Option BufKind := (c.bufMap.find? fun r => regionHolds r a).map (·.kind)

/-- The parameter `buf_admits` of R5: the address is backed by storage. -/
def bufAdmits (c : Config) (a : Addr) : Bool := bufKind c a == some .storage

/-- R38, R36: writes are performed only where storage backs every address; a device among them is refused by
name, and an address that nothing backs leaves the machine stuck. -/
def ifAdmitted (ws : List BufWrite) (s t : State) : Host.Outcome State Fault Refusal :=
  if ws.all fun w => bufAdmits s.cfg w.1 then .next t
  else if ws.any fun w => bufKind s.cfg w.1 == some .device then .refused .deviceWrite
  else .fault .unbackedBuf

/-- R34: the byte writes of a stamp, byte `k` of the image to address `(dest + k) mod 2^32`. -/
def imageWrites (dest : Addr) (image : List Byte) : List BufWrite :=
  image.mapIdx fun k b => (dest + BitVec.ofNat 32 k, b)

/-- R86, R98: `MemWrite(dest, n, I)` and then the response, which is sent after every byte write is performed
(R43). The order of the byte writes among themselves is left open (R37); the addresses being distinct, every
order leaves the same `BUF`. -/
def stamp (dest : Addr) (image : List Byte) (s : State) : Host.Outcome State Fault Refusal :=
  ifAdmitted (imageWrites dest image) s
    ((s.setBuf (Memory.writeAll s.buf (imageWrites dest image))).respond [])

end Sys2Proof.Machine
end

