-- ==== Sys2Proof/Machine/ByteOrder.lean ====
section
/-!
DEFINITION. The Byte-Order Utilities: the conversions and the six commands (41_byteorder.md R69 to R75), and how a
host lays an integer out in its own order (R78).
-/

namespace Sys2Proof.Machine

/-- R9 `bswap16`: the low byte becomes the most significant. -/
def bswap16 (v : BitVec 16) : BitVec 16 := u16 (v.extractLsb' 0 8) (v.extractLsb' 8 8)

/-- R9 `bswap32`: the four bytes in the reverse order. -/
def bswap32 (v : BitVec 32) : BitVec 32 :=
  u32 (v.extractLsb' 0 8) (v.extractLsb' 8 8) (v.extractLsb' 16 8) (v.extractLsb' 24 8)

/-- R9 `bswap64`, R76: each half swapped and the halves exchanged. -/
def bswap64 (v : BitVec 64) : BitVec 64 := bswap32 (v.extractLsb' 0 32) ++ bswap32 (v.extractLsb' 32 32)

/-- R69 `hton_16`. -/
def hton16 (c : Config) (v : BitVec 16) : BitVec 16 := if c.hostBigEndian then v else bswap16 v

/-- R69 `hton_32`. -/
def hton32 (c : Config) (v : BitVec 32) : BitVec 32 := if c.hostBigEndian then v else bswap32 v

/-- R69 `hton_64`. -/
def hton64 (c : Config) (v : BitVec 64) : BitVec 64 := if c.hostBigEndian then v else bswap64 v

/-- R69 `ntoh_16`: "the inverse is the same function". -/
def ntoh16 (c : Config) (v : BitVec 16) : BitVec 16 := hton16 c v

/-- R69 `ntoh_32`. -/
def ntoh32 (c : Config) (v : BitVec 32) : BitVec 32 := hton32 c v

/-- R69 `ntoh_64`. -/
def ntoh64 (c : Config) (v : BitVec 64) : BitVec 64 := hton64 c v

/-- R70 `HTON16 v`. -/
def execHton16 (v : BitVec 16) (s : State) : Host.Outcome State Fault Refusal :=
  .next (s.respond (be16 (hton16 s.cfg v)).toList)

/-- R71 `HTON32 v`. -/
def execHton32 (v : BitVec 32) (s : State) : Host.Outcome State Fault Refusal :=
  .next (s.respond (be32 (hton32 s.cfg v)).toList)

/-- R72 `HTON64 v`. -/
def execHton64 (v : BitVec 64) (s : State) : Host.Outcome State Fault Refusal :=
  .next (s.respond (be64 (hton64 s.cfg v)).toList)

/-- R73 `NTOH16 v`. -/
def execNtoh16 (v : BitVec 16) (s : State) : Host.Outcome State Fault Refusal :=
  .next (s.respond (be16 (ntoh16 s.cfg v)).toList)

/-- R74 `NTOH32 v`. -/
def execNtoh32 (v : BitVec 32) (s : State) : Host.Outcome State Fault Refusal :=
  .next (s.respond (be32 (ntoh32 s.cfg v)).toList)

/-- R75 `NTOH64 v`. -/
def execNtoh64 (v : BitVec 64) (s : State) : Host.Outcome State Fault Refusal :=
  .next (s.respond (be64 (ntoh64 s.cfg v)).toList)

/-- R78: the bytes a host leaves at addresses `a .. a+n-1` when it stores the `8n`-bit integer `x` in its own
order. The host is outside the block; this is here for the laws that relate a conversion to storage. -/
def hostStore (bigEndian : Bool) (n : Nat) (x : BitVec (8 * n)) : Vector Byte n :=
  Vector.ofFn fun k => if bigEndian then x.extractLsb' (8 * n - 8 - 8 * k) 8 else x.extractLsb' (8 * k) 8

end Sys2Proof.Machine
end

