-- ==== Sys2Proof/Machine/Checksum.lean ====
section
/-!
DEFINITION. The Checksum Engine: the function `cksum20` and the command `CKSUM` (40_checksum.md R63, R64), and the
checking formula of R66.
-/

namespace Sys2Proof.Machine

/-- R63 `w_i`: word `i` of an IPv4 header, bytes `2i` (high) and `2i+1` (low), as a number. -/
def ipWord (h : IpHeader) (i : Nat) (hi : i < 10) : Nat := (u16 h[2 * i] h[2 * i + 1]).toNat

/-- R63 `S`: the nine words without the checksum word 5. -/
def sumNine (h : IpHeader) : Nat :=
  ipWord h 0 (by decide) + ipWord h 1 (by decide) + ipWord h 2 (by decide) + ipWord h 3 (by decide) +
  ipWord h 4 (by decide) + ipWord h 6 (by decide) + ipWord h 7 (by decide) + ipWord h 8 (by decide) +
  ipWord h 9 (by decide)

/-- One carry fold: the low 16 bits plus what lies above them (R63 `F1`, `F2`). -/
def fold16 (x : Nat) : Nat := x % 0x10000 + x / 0x10000

/-- R63 `cksum20`: two folds and the complement. -/
def cksum20 (h : IpHeader) : BitVec 16 := ~~~ BitVec.ofNat 16 (fold16 (fold16 (sumNine h)))

/-- R66 `S'`: all ten words. -/
def sumTen (h : IpHeader) : Nat := sumNine h + ipWord h 5 (by decide)

/-- R66: the header verifies, `G2 = 0xFFFF`. A checking formula for hosts; no command computes it. -/
def verifies (h : IpHeader) : Prop := fold16 (fold16 (sumTen h)) = 0xFFFF

/-- R64 `CKSUM H`. -/
def execCksum (h : IpHeader) (s : State) : Host.Outcome State Fault Refusal :=
  .next (s.respond (be16 (cksum20 h)).toList)

end Sys2Proof.Machine
end

