-- ==== Sys2Proof/Machine/RdmxBuilder.lean ====
section
/-!
DEFINITION. The RDMX Frame Template Builder: the header image and the six commands (43_rdmx_builder.md R93 to R99).
-/

namespace Sys2Proof.Machine

/-- R99 `imageR`: the template with the two lengths (16-bit sums, modulo 2^16), the target address and then the
checksum over the IPv4 header bytes 14..33 filled in. -/
def imageR (t : TemplateR) (plen : BitVec 16) (target : BitVec 64) : TemplateR :=
  let i := patch (patch (patch t 16 (be16 (50 + plen))) 38 (be16 (30 + plen))) 44 (be64 target)
  patch i 24 (be16 (cksum20 (slice i 14 20 (by decide))))

/-- R93 `RCONS`. -/
def execRcons (s : State) : Host.Outcome State Fault Refusal :=
  .next ((s.setTr (defaultR s.cfg)).respond [])

/-- R94 `RSMAC src, dst`. -/
def execRsmac (src dst : MacAddr) (s : State) : Host.Outcome State Fault Refusal :=
  .next ((s.setTr (patch (patch s.tr 6 src) 0 dst)).respond [])

/-- R95 `RSMACB src`. -/
def execRsmacb (src : MacAddr) (s : State) : Host.Outcome State Fault Refusal :=
  .next ((s.setTr (patch (patch s.tr 6 src) 0 broadcastMac)).respond [])

/-- R96 `RSIP src, dst`. -/
def execRsip (src dst : IpAddr) (s : State) : Host.Outcome State Fault Refusal :=
  .next ((s.setTr (patch (patch s.tr 26 src) 30 dst)).respond [])

/-- R97 `RSPORT sport`: the destination port is rewritten with the fixed constant. -/
def execRsport (sport : BitVec 16) (s : State) : Host.Outcome State Fault Refusal :=
  .next ((s.setTr (patch (patch s.tr 34 (be16 sport)) 36 (be16 s.cfg.rdmxDstPort))).respond [])

/-- R98 `RWRHDR dest, plen, target`. -/
def execRwrhdr (dest : Addr) (plen : BitVec 16) (target : BitVec 64) (s : State) :
    Host.Outcome State Fault Refusal :=
  stamp dest (imageR s.tr plen target).toList s

end Sys2Proof.Machine
end

