-- ==== Sys2Proof/Machine/UdpBuilder.lean ====
section
/-!
DEFINITION. The UDP Frame Template Builder: the header image and the six commands (42_udp_builder.md R81 to R87).
-/

namespace Sys2Proof.Machine

/-- R87 `imageU`: the template with the two lengths (16-bit sums, modulo 2^16) and then the checksum over the
IPv4 header bytes 14..33 filled in. -/
def imageU (t : TemplateU) (plen : BitVec 16) : TemplateU :=
  let i := patch (patch t 16 (be16 (28 + plen))) 38 (be16 (8 + plen))
  patch i 24 (be16 (cksum20 (slice i 14 20 (by decide))))

/-- R81 `UCONS`. -/
def execUcons (s : State) : Host.Outcome State Fault Refusal :=
  .next ((s.setTu (defaultU s.cfg)).respond [])

/-- R82 `USMAC src, dst`. -/
def execUsmac (src dst : MacAddr) (s : State) : Host.Outcome State Fault Refusal :=
  .next ((s.setTu (patch (patch s.tu 6 src) 0 dst)).respond [])

/-- R83 `USMACB src`. -/
def execUsmacb (src : MacAddr) (s : State) : Host.Outcome State Fault Refusal :=
  .next ((s.setTu (patch (patch s.tu 6 src) 0 broadcastMac)).respond [])

/-- R84 `USIP src, dst`. -/
def execUsip (src dst : IpAddr) (s : State) : Host.Outcome State Fault Refusal :=
  .next ((s.setTu (patch (patch s.tu 26 src) 30 dst)).respond [])

/-- R85 `USPORT sport, dport`. -/
def execUsport (sport dport : BitVec 16) (s : State) : Host.Outcome State Fault Refusal :=
  .next ((s.setTu (patch (patch s.tu 34 (be16 sport)) 36 (be16 dport))).respond [])

/-- R86 `UWRHDR dest, plen`. -/
def execUwrhdr (dest : Addr) (plen : BitVec 16) (s : State) : Host.Outcome State Fault Refusal :=
  stamp dest (imageU s.tu plen).toList s

end Sys2Proof.Machine
end

