-- ==== Sys2Proof/Machine/Dispatch.lean ====
section
/-!
DEFINITION. One arm per command: the meaning of each (00_scope.md R10 `exec`).
-/

namespace Sys2Proof.Machine

def exec (i : Instr) (s : State) : Host.Outcome State Fault Refusal :=
  match i with
  | .cksum h => Sys2Proof.Machine.execCksum h s
  | .hton16 v => Sys2Proof.Machine.execHton16 v s
  | .hton32 v => Sys2Proof.Machine.execHton32 v s
  | .hton64 v => Sys2Proof.Machine.execHton64 v s
  | .ntoh16 v => Sys2Proof.Machine.execNtoh16 v s
  | .ntoh32 v => Sys2Proof.Machine.execNtoh32 v s
  | .ntoh64 v => Sys2Proof.Machine.execNtoh64 v s
  | .ucons => Sys2Proof.Machine.execUcons s
  | .usmac src dst => Sys2Proof.Machine.execUsmac src dst s
  | .usmacb src => Sys2Proof.Machine.execUsmacb src s
  | .usip src dst => Sys2Proof.Machine.execUsip src dst s
  | .usport sport dport => Sys2Proof.Machine.execUsport sport dport s
  | .uwrhdr dest plen => Sys2Proof.Machine.execUwrhdr dest plen s
  | .rcons => Sys2Proof.Machine.execRcons s
  | .rsmac src dst => Sys2Proof.Machine.execRsmac src dst s
  | .rsmacb src => Sys2Proof.Machine.execRsmacb src s
  | .rsip src dst => Sys2Proof.Machine.execRsip src dst s
  | .rsport sport => Sys2Proof.Machine.execRsport sport s
  | .rwrhdr dest plen target => Sys2Proof.Machine.execRwrhdr dest plen target s

end Sys2Proof.Machine
end

