-- ==== Sys2Proof/Machine/Input.lean ====
section
/-!
DEFINITION. Taking one input: a packet is decoded and executed, or answered as illegal; `RESET` and the writes of
other agents on `BUF` land between commands or inside one (20_memory.md R37, 60_exceptions.md R105,
70_reset_and_hazards.md R117, R118, R126).
-/

namespace Sys2Proof.Machine

/-- R10 `Writes`: the byte writes a command makes, from the templates as they are when it starts. -/
def writesOf (i : Instr) (s : State) : List BufWrite :=
  match i with
  | .cksum _ => []
  | .hton16 _ => []
  | .hton32 _ => []
  | .hton64 _ => []
  | .ntoh16 _ => []
  | .ntoh32 _ => []
  | .ntoh64 _ => []
  | .ucons => []
  | .usmac _ _ => []
  | .usmacb _ => []
  | .usip _ _ => []
  | .usport _ _ => []
  | .uwrhdr dest plen => imageWrites dest (imageU s.tu plen).toList
  | .rcons => []
  | .rsmac _ _ => []
  | .rsmacb _ => []
  | .rsip _ _ => []
  | .rsport _ => []
  | .rwrhdr dest plen target => imageWrites dest (imageR s.tr plen target).toList

/-- The byte writes of a packet; an illegal packet "writes nothing to `BUF`" (R59). -/
def packetWrites (p : Packet) (s : State) : List BufWrite :=
  match decode p with
  | .ok i => writesOf i s
  | .error _ => []

/-- Decode and execute a packet, or answer it as illegal (R105). -/
def runPacket (p : Packet) (s : State) : Host.Outcome State Fault Refusal :=
  match decode p with
  | .ok i => exec i s
  | .error _ => .next s.raiseIllegal

/-- Of the writes other agents make while the byte writes `stamped` are in flight, those that stay: all outside
the stamped addresses, and at a stamped address the free choice ("the final byte is either one", R37). -/
def agentsThatStay (draw : Nat) (stamped agents : List BufWrite) : List BufWrite :=
  agents.filter fun w => !(stamped.any fun x => x.1 == w.1) || Config.freeAgentWins draw w.1

/-- The byte writes of an interrupted stamp that had reached `BUF`: any subset (R118). -/
def reachedWrites (draw : Nat) (stamped : List BufWrite) : List BufWrite :=
  (stamped.zipIdx.filter fun x => Config.freeReached draw x.2).map (·.1)

/-- Writes of other agents. -/
def agentWrites (ws : List BufWrite) (s : State) : Host.Outcome State Fault Refusal :=
  ifAdmitted ws s (s.setBuf (Memory.writeAll s.buf ws))

/-- R37: a packet with racing writes of other agents. -/
def runRacing (p : Packet) (agents : List BufWrite) (s : State) : Host.Outcome State Fault Refusal :=
  match runPacket p s with
  | .next t => agentWrites (agentsThatStay s.draws (packetWrites p s) agents) t.countDraw
  | .fault f => .fault f
  | .refused r => .refused r

/-- R118: a packet abandoned by `RESET`: no response, both templates at their reset values, any subset of a
stamp's bytes written. -/
def runAbandoned (p : Packet) (agents : List BufWrite) (s : State) : Host.Outcome State Fault Refusal :=
  let reached := reachedWrites s.draws (packetWrites p s)
  let stay := agentsThatStay s.draws reached agents
  ifAdmitted (packetWrites p s ++ stay) s
    (s.resetBlock.setBuf (Memory.writeAll s.buf (reached ++ stay))).countDraw

/-- What one input does. -/
def takeInput (e : Input) (s : State) : Host.Outcome State Fault Refusal :=
  match e with
  | .packet p => runPacket p s
  | .packetRacing p agents => runRacing p agents s
  | .packetReset p agents => runAbandoned p agents s
  | .reset => .next s.resetBlock
  | .agentWrite w => agentWrites [w] s

end Sys2Proof.Machine
end

