-- ==== Sys2Proof/Machine/Step.lean ====
section
/-!
DEFINITION. One step: the next input is taken, or the block is idle (60_exceptions.md R116).
-/

namespace Sys2Proof.Machine

/-- One step of the machine. Inputs are taken one at a time, each to completion, in order (R6, R42); with nothing
to take "the block is idle ..., and idling keeps `TU` and `TR`" (R116). -/
def step (s : State) : Host.Outcome State Fault Refusal :=
  match s.cmd with
  | [] => .next s
  | e :: rest => takeInput e (s.setCmd rest)

/-- `s` with the packet of a table word as the next to arrive on `CMD`. -/
def State.withFetchWord (s : State) (nbits w : Nat) : State :=
  s.setCmd (.packet (tablePacket nbits w) :: s.cmd)

end Sys2Proof.Machine
end

