-- ==== Sys2Proof/Machine/Assembler.lean ====
section
/-!
DEFINITION. The assembler syntax of 30_encoding.md R60 and its two pseudo-instructions (R61), over lists of
characters: a line is one command, and a program is a straight list of commands that the host sends on `CMD`.
-/

namespace Sys2Proof.Machine

/-- The pieces of a line between separators. -/
def splitAtChar (sep : Char) (l : List Char) : List (List Char) :=
  l.foldr (fun c acc => if c = sep then [] :: acc else
    match acc with
    | [] => [[c]]
    | w :: ws => (c :: w) :: ws) [[]]

def isBlank (c : Char) : Bool := c = ' ' || c = '\t' || c = '\r'

/-- A piece without the blanks around it. -/
def trimBlanks (l : List Char) : List Char := ((l.dropWhile isBlank).reverse.dropWhile isBlank).reverse

/-- The digits of R60's numbers, each at the place of its value: the decimal ones are the first ten. -/
def numerals : List Char := "0123456789ABCDEF".toList

/-- The value of a digit of base 10 or 16: its place among the first `base` numerals. A small letter counts as its
capital (assumption 11). -/
def digitValue (base : Nat) (c : Char) : Option Nat := (numerals.take base).findIdx? fun d => d == c.toUpper

/-- A number, most significant digit first: one or more digits and nothing else. -/
def readNumber (base : Nat) (l : List Char) : Option Nat :=
  match l.mapM (digitValue base) with
  | some (d :: ds) => some (ds.foldl (fun high low => base * high + low) d)
  | _ => none

/-- R60: an integer operand, decimal or `0x` and hexadecimal, that fits its width. -/
def readInt (width : Nat) (l : List Char) : Option (BitVec width) :=
  let v := match l with
    | '0' :: 'x' :: ds => readNumber 16 ds
    | ds => readNumber 10 ds
  v.bind fun n => if n < 2 ^ width then some (BitVec.ofNat width n) else none

/-- One byte as a two-digit hexadecimal number. -/
def readHexByte (l : List Char) : Option Byte :=
  if l.length = 2 then (readNumber 16 l).map (BitVec.ofNat 8) else none

/-- An octet of the dotted form, decimal and at most 255. -/
def readOctet (l : List Char) : Option Byte :=
  (readNumber 10 l).bind fun n => if n < 256 then some (BitVec.ofNat 8 n) else none

def vectorOfList (n : Nat) (l : List Byte) : Option (Vector Byte n) :=
  if h : l.length = n then some ⟨l.toArray, by simp [h]⟩ else none

/-- R60: a byte-array operand, its bytes joined by `:`. -/
def readBytes (n : Nat) (l : List Char) : Option (Vector Byte n) :=
  ((splitAtChar ':' l).mapM readHexByte).bind (vectorOfList n)

/-- R60: a 4-byte IPv4 address, joined by `:` or in dotted decimal. -/
def readIp (l : List Char) : Option IpAddr :=
  if l.contains '.' then ((splitAtChar '.' l).mapM readOctet).bind (vectorOfList 4) else readBytes 4 l

/-- A mnemonic with its operands (R60), the one-operand `USMAC` and `RSMAC` among them (R61). -/
def assembleParts (mnemonic : String) (operands : List (List Char)) : Option Instr :=
  match mnemonic, operands with
  | "CKSUM", [h] => (readBytes 20 h).map .cksum
  | "HTON16", [v] => (readInt 16 v).map .hton16
  | "HTON32", [v] => (readInt 32 v).map .hton32
  | "HTON64", [v] => (readInt 64 v).map .hton64
  | "NTOH16", [v] => (readInt 16 v).map .ntoh16
  | "NTOH32", [v] => (readInt 32 v).map .ntoh32
  | "NTOH64", [v] => (readInt 64 v).map .ntoh64
  | "UCONS", [] => some .ucons
  | "USMAC", [src, dst] => (readBytes 6 src).bind fun a => (readBytes 6 dst).map fun b => .usmac a b
  | "USMAC", [src] => (readBytes 6 src).map .usmacb
  | "USMACB", [src] => (readBytes 6 src).map .usmacb
  | "USIP", [src, dst] => (readIp src).bind fun a => (readIp dst).map fun b => .usip a b
  | "USPORT", [sp, dp] => (readInt 16 sp).bind fun a => (readInt 16 dp).map fun b => .usport a b
  | "UWRHDR", [d, l] => (readInt 32 d).bind fun a => (readInt 16 l).map fun b => .uwrhdr a b
  | "RCONS", [] => some .rcons
  | "RSMAC", [src, dst] => (readBytes 6 src).bind fun a => (readBytes 6 dst).map fun b => .rsmac a b
  | "RSMAC", [src] => (readBytes 6 src).map .rsmacb
  | "RSMACB", [src] => (readBytes 6 src).map .rsmacb
  | "RSIP", [src, dst] => (readIp src).bind fun a => (readIp dst).map fun b => .rsip a b
  | "RSPORT", [sp] => (readInt 16 sp).map .rsport
  | "RWRHDR", [d, l, t] =>
    (readInt 32 d).bind fun a => (readInt 16 l).bind fun b => (readInt 64 t).map fun x => .rwrhdr a b x
  | _, _ => none

/-- One line of assembly: `some none` for a line that holds no command, none for one that is not of the syntax. -/
def assembleLine (l : List Char) : Option (Option Instr) :=
  let code := trimBlanks (l.takeWhile fun c => c != ';')
  let mnemonic := code.takeWhile fun c => !isBlank c
  let rest := trimBlanks (code.dropWhile fun c => !isBlank c)
  if code.isEmpty then some none
  else
    let operands := if rest.isEmpty then [] else (splitAtChar ',' rest).map trimBlanks
    (assembleParts (String.ofList mnemonic) operands).map some

/-- A program text, one command per line (R60). -/
def assemble (text : List Char) : Option (List Instr) :=
  ((splitAtChar '\n' text).mapM assembleLine).map fun ls => ls.filterMap id

/-- A program comes to run by being sent: its packets arrive after everything already on its way. -/
def State.sendProgram (prog : List Instr) (s : State) : State :=
  s.setCmd (s.cmd ++ prog.map fun i => .packet (encode i))

end Sys2Proof.Machine
end

