-- ==== Sys2Proof/Safety.lean ====
section
/-!
DEFINITION. The terms in which claims speak: the invariants of 10_state.md R23 to R25, reachability, and what it
means for a command to leave the rest of the machine alone.
-/

namespace Sys2Proof.Machine

/-- The byte array holds the listed bytes at the listed offsets. -/
def HoldsBytes {n : Nat} (t : Vector Byte n) (l : List (Nat × Byte)) : Prop := ∀ p ∈ l, t[p.1]? = some p.2

/-- R23: the fixed fields that both templates have. -/
def fixedBytes (c : Config) : List (Nat × Byte) :=
  [(12, 0x08), (13, 0x00), (14, 0x45), (15, 0x00), (18, c.ipId.extractLsb' 8 8), (19, c.ipId.extractLsb' 0 8),
   (20, 0x40), (21, 0x00), (22, 0x40), (23, 0x11), (40, 0x00), (41, 0x00)]

/-- R23: the fixed fields of the extension header. -/
def rdmxFixedBytes (c : Config) : List (Nat × Byte) :=
  [(42, c.rdmxMagic.extractLsb' 8 8), (43, c.rdmxMagic.extractLsb' 0 8),
   (52, 0), (53, 0), (54, 0), (55, 0), (56, 0), (57, 0), (58, 0), (59, 0), (60, 0), (61, 0), (62, 0), (63, 0)]

/-- R24: the per-frame fields that both templates have; they are zero in a template. -/
def perFrameBytes : List (Nat × Byte) := [(16, 0), (17, 0), (24, 0), (25, 0), (38, 0), (39, 0)]

/-- R24: the target address; it is zero in the template. -/
def targetBytes : List (Nat × Byte) :=
  [(44, 0), (45, 0), (46, 0), (47, 0), (48, 0), (49, 0), (50, 0), (51, 0)]

/-- R25: the destination port of the RDMX template. -/
def rdmxPortBytes (c : Config) : List (Nat × Byte) :=
  [(36, c.rdmxDstPort.extractLsb' 8 8), (37, c.rdmxDstPort.extractLsb' 0 8)]

/-- What holds in every reachable state: R23, R24, R25, and the canonical form of `BUF`. -/
structure BlockInv (s : State) : Prop where
  tuFixed      : HoldsBytes s.tu (fixedBytes s.cfg)
  trFixed      : HoldsBytes s.tr (fixedBytes s.cfg ++ rdmxFixedBytes s.cfg)
  tuPerFrame   : HoldsBytes s.tu perFrameBytes
  trPerFrame   : HoldsBytes s.tr (perFrameBytes ++ targetBytes)
  trPort       : HoldsBytes s.tr (rdmxPortBytes s.cfg)
  bufCanonical : Memory.wf s.buf

/-- The states a block of any configuration can come to: from reset with any contents of `BUF` (R22), inputs of
any kind arriving at any time. -/
inductive Reachable : State → Prop where
  | reset (c : Config) (m : Memory) (hm : Memory.wf m) : Reachable ((State.resetOf c).setBuf m)
  | arrive (s : State) (e : Input) (h : Reachable s) : Reachable (s.setCmd (s.cmd ++ [e]))
  | step (s t : State) (h : Reachable s) (ht : Machine.step s = .next t) : Reachable t

/-- R125: a run is over when nothing is left to take. -/
def Quiescent (s : State) : Prop := s.cmd = []

/-- Storage backs every byte of a stamp of `n` bytes at `dest` (R38): the stamp is a safe one. -/
def Backed (c : Config) (dest : Addr) (n : Nat) : Prop := ∀ k < n, bufAdmits c (dest + BitVec.ofNat 32 k) = true

/-- The parameters, the inputs still to come and the model's counter are as before. -/
structure SameSurroundings (s t : State) : Prop where
  cfg   : t.cfg = s.cfg
  cmd   : t.cmd = s.cmd
  draws : t.draws = s.draws

/-- Every byte of `BUF` is as before. -/
def SameBuf (s t : State) : Prop := ∀ a : Addr, readBuf t a = readBuf s a

/-- Every byte of `BUF` but the `n` bytes from `dest` on, modulo 2^32, is as before. -/
def SameBufOutside (dest : Addr) (n : Nat) (s t : State) : Prop :=
  ∀ a : Addr, (∀ k < n, a ≠ dest + BitVec.ofNat 32 k) → readBuf t a = readBuf s a

/-- The frame of a command that answers `q` and changes nothing else. -/
structure OnlyAnswers (q : Packet) (s t : State) : Prop where
  around : SameSurroundings s t
  tu     : t.tu = s.tu
  tr     : t.tr = s.tr
  buf    : SameBuf s t
  rsp    : t.rsp = s.rsp ++ [q]

/-- The frame of a UDP construct or setter: it answers OK and changes `TU` at the given offsets only. -/
structure OnlyTu (touched : Nat → Prop) (s t : State) : Prop where
  around : SameSurroundings s t
  tu     : ∀ (k : Nat) (hk : k < 42), ¬ touched k → t.tu[k] = s.tu[k]
  tr     : t.tr = s.tr
  buf    : SameBuf s t
  rsp    : t.rsp = s.rsp ++ [[0x00]]

/-- The frame of an RDMX construct or setter: it answers OK and changes `TR` at the given offsets only. -/
structure OnlyTr (touched : Nat → Prop) (s t : State) : Prop where
  around : SameSurroundings s t
  tr     : ∀ (k : Nat) (hk : k < 64), ¬ touched k → t.tr[k] = s.tr[k]
  tu     : t.tu = s.tu
  buf    : SameBuf s t
  rsp    : t.rsp = s.rsp ++ [[0x00]]

/-- The frame of a stamp of `n` bytes at `dest`: it answers OK and changes those bytes of `BUF` only. -/
structure OnlyStamps (dest : Addr) (n : Nat) (s t : State) : Prop where
  around : SameSurroundings s t
  tu     : t.tu = s.tu
  tr     : t.tr = s.tr
  buf    : SameBufOutside dest n s t
  rsp    : t.rsp = s.rsp ++ [[0x00]]

end Sys2Proof.Machine
end

