-- ==== Sys2Proof/Certificates/Slice0/Obligations.lean ====
section
/-!
DEFINITION. The statements for the provers. Each docstring names the rule of spec/ it formalises. Every statement
holds for every configuration of the block: a configuration is a field of the state, and no default of
00_scope.md R5 is used.
-/

/-! What the statements are written with: the spec's tables and formulas, written out once more. -/

namespace Sys2Proof.Claims

open Sys2Proof.Machine

/-- The more significant byte of a 16-bit value. -/
abbrev hi8 (v : BitVec 16) : Byte := v.extractLsb' 8 8

/-- The less significant byte of a 16-bit value. -/
abbrev lo8 (v : BitVec 16) : Byte := v.extractLsb' 0 8

/-- R46: the nineteen assigned opcode bytes with their packet lengths. -/
def assigned : List (Byte × Nat) :=
  [(0x00, 21), (0x10, 3), (0x11, 5), (0x12, 9), (0x14, 3), (0x15, 5), (0x16, 9),
   (0x20, 1), (0x21, 13), (0x22, 7), (0x23, 9), (0x24, 5), (0x25, 7),
   (0x30, 1), (0x31, 13), (0x32, 7), (0x33, 9), (0x34, 3), (0x35, 15)]

/-- R59: the packet is a command. -/
def IsCommand (p : Packet) : Prop := ∃ op rest n, p = op :: rest ∧ (op, n) ∈ assigned ∧ p.length = n

/-- R57: the length of the OK response to a command. -/
def okLength : Instr → Nat
  | .cksum _ => 3
  | .hton16 _ => 3
  | .hton32 _ => 5
  | .hton64 _ => 9
  | .ntoh16 _ => 3
  | .ntoh32 _ => 5
  | .ntoh64 _ => 9
  | .ucons => 1
  | .usmac _ _ => 1
  | .usmacb _ => 1
  | .usip _ _ => 1
  | .usport _ _ => 1
  | .uwrhdr _ _ => 1
  | .rcons => 1
  | .rsmac _ _ => 1
  | .rsmacb _ => 1
  | .rsip _ _ => 1
  | .rsport _ => 1
  | .rwrhdr _ _ _ => 1

/-- R20: the image `DEFAULT_U`. -/
def udpDefaults (c : Config) : List Byte :=
  [0xFF, 0xFF, 0xFF, 0xFF, 0xFF, 0xFF, 0, 0, 0, 0, 0, 0, 0x08, 0x00,
   0x45, 0x00, 0x00, 0x00, hi8 c.ipId, lo8 c.ipId, 0x40, 0x00, 0x40, 0x11, 0x00, 0x00] ++
  List.replicate 16 0x00

/-- R21: the image `DEFAULT_R`. -/
def rdmxDefaults (c : Config) : List Byte :=
  (udpDefaults c).take 36 ++ [hi8 c.rdmxDstPort, lo8 c.rdmxDstPort, 0x00, 0x00, 0x00, 0x00] ++
  [hi8 c.rdmxMagic, lo8 c.rdmxMagic] ++ List.replicate 20 0x00

/-- R63 `w_i`. -/
def word (h : IpHeader) (i : Nat) (hi : i < 10) : Nat := h[2 * i].toNat * 256 + h[2 * i + 1].toNat

/-- R63 `S`: nine words; word 5 is not added. -/
def headerSum (h : IpHeader) : Nat :=
  word h 0 (by decide) + word h 1 (by decide) + word h 2 (by decide) + word h 3 (by decide) +
  word h 4 (by decide) + word h 6 (by decide) + word h 7 (by decide) + word h 8 (by decide) +
  word h 9 (by decide)

/-- One carry fold of R63. -/
def foldOnce (x : Nat) : Nat := x % 65536 + x / 65536

/-- R66: the two-fold of the sum of all ten words is 0xFFFF. -/
def SelfVerifies (h : IpHeader) : Prop :=
  foldOnce (foldOnce (headerSum h + word h 5 (by decide))) = 0xFFFF

/-- The header with the bytes `a`, `b` in its checksum field. -/
def withField (h : IpHeader) (a b : Byte) : IpHeader := (h.set 10 a).set 11 b

/-- The fields a setter can write (R18). -/
inductive Field where
  | mac | ip | port
deriving DecidableEq, Repr

/-- The field a UDP setter writes. -/
def udpField : Instr → Option Field
  | .usmac _ _ => some .mac
  | .usmacb _ => some .mac
  | .usip _ _ => some .ip
  | .usport _ _ => some .port
  | _ => none

/-- The field an RDMX setter writes. -/
def rdmxField : Instr → Option Field
  | .rsmac _ _ => some .mac
  | .rsmacb _ => some .mac
  | .rsip _ _ => some .ip
  | .rsport _ => some .port
  | _ => none

/-- The offsets of a field (R90, R102). -/
def inField : Field → Nat → Prop
  | .mac, k => k < 12
  | .ip, k => 26 ≤ k ∧ k < 34
  | .port, k => 34 ≤ k ∧ k < 38

/-- A UDP construct or setter (R15). -/
def WritesTu (i : Instr) : Prop := i = .ucons ∨ (udpField i).isSome

/-- An RDMX construct or setter (R16). -/
def WritesTr (i : Instr) : Prop := i = .rcons ∨ (rdmxField i).isSome

/-- A stamp. -/
def IsStamp : Instr → Prop
  | .uwrhdr _ _ => True
  | .rwrhdr _ _ _ => True
  | _ => False

/-- A byte-order command. -/
def IsConversion : Instr → Prop
  | .hton16 _ => True
  | .hton32 _ => True
  | .hton64 _ => True
  | .ntoh16 _ => True
  | .ntoh32 _ => True
  | .ntoh64 _ => True
  | _ => False

/-- The same machine built for a host of the given byte order. -/
def forHost (bigEndian : Bool) (s : State) : State := { s with cfg := { s.cfg with hostBigEndian := bigEndian } }

/-- The same machine with other responses sent before. -/
def afterResponses (q : List Packet) (s : State) : State := { s with rsp := q ++ s.rsp }

end Sys2Proof.Claims

open Sys2Proof Sys2Proof.Machine Sys2Proof.Claims

/-! ## Encoding -/

/-- R60: the packets the spec prints beside its assembly examples, decoded. -/
def Obligations.PrintedPacketsDecode : Prop :=
  decode [0x21, 0xC4, 0x00, 0xAD, 0x3A, 0xD3, 0x6B, 0x01, 0x02, 0x03, 0x04, 0x05, 0x06] =
      .ok (.usmac #v[0xC4, 0x00, 0xAD, 0x3A, 0xD3, 0x6B] #v[0x01, 0x02, 0x03, 0x04, 0x05, 0x06]) ∧
  decode [0x24, 0x04, 0xD2, 0x16, 0x2E] = .ok (.usport 1234 5678) ∧
  decode [0x35, 0x00, 0x00, 0x20, 0x00, 0x01, 0x00, 0x12, 0x34, 0x56, 0x78, 0x9A, 0xBC, 0xDE, 0xF0] =
      .ok (.rwrhdr 0x00002000 256 0x123456789ABCDEF0) ∧
  decode [0x10, 0x12, 0x34] = .ok (.hton16 0x1234)

/-- R59: `decode` answers a command exactly for an assigned opcode byte with its length, and then the command
whose packet it is; every other opcode byte, in the ranges R59 lists, is reserved; an illegal packet changes no
state, writes nothing to `BUF` and is answered `01`. -/
def Obligations.PacketIsCommandExactlyWhenAssigned : Prop :=
  (∀ p, (∃ i, decode p = .ok i) ↔ IsCommand p) ∧
  (∀ p i, decode p = .ok i → encode i = p) ∧
  (∀ op : Byte, (∀ n, (op, n) ∉ assigned) ↔
    (0x01 ≤ op ∧ op ≤ 0x0F) ∨ op = 0x13 ∨ (0x17 ≤ op ∧ op ≤ 0x1F) ∨ (0x26 ≤ op ∧ op ≤ 0x2F) ∨ 0x36 ≤ op) ∧
  (∀ s p rest, s.cmd = .packet p :: rest → ¬ IsCommand p →
    ∃ t, step s = .next t ∧ OnlyAnswers [0x01] (s.setCmd rest) t)

/-- R45 to R58: no bit of a command is lost in its packet. -/
def Obligations.DecodeOfEncode : Prop := ∀ i : Instr, decode (encode i) = .ok i

/-- R45 to R58: a packet that decodes is the packet of its command, and no two packets are the same command. -/
def Obligations.EncodeOfDecode : Prop :=
  (∀ p i, decode p = .ok i → encode i = p) ∧ (∀ p q i, decode p = .ok i → decode q = .ok i → p = q)

/-- R57, R42 c: a packet that is taken is answered by exactly one response packet, after those sent before; its
status byte is OK for a command, and the packet then has the length of the table; it is the single byte `01` for
what is no command. -/
def Obligations.OneResponsePerPacket : Prop :=
  ∀ s p rest t, s.cmd = .packet p :: rest → step s = .next t →
    ∃ q, t.rsp = s.rsp ++ [q] ∧
      (∀ i, decode p = .ok i → q.head? = some 0x00 ∧ q.length = okLength i) ∧
      (¬ IsCommand p → q = [0x01])

/-- R60, R61: the assembly examples of the spec, and the one-operand `USMAC` and `RSMAC`, which are `USMACB` and
`RSMACB`. -/
def Obligations.AssemblyExamples : Prop :=
  assembleLine "USMAC  C4:00:AD:3A:D3:6B, 01:02:03:04:05:06   ; 21 C4 00 AD 3A D3 6B 01 02 03 04 05 06".toList =
    some (some (.usmac #v[0xC4, 0x00, 0xAD, 0x3A, 0xD3, 0x6B] #v[0x01, 0x02, 0x03, 0x04, 0x05, 0x06])) ∧
  assembleLine "USIP   10.11.12.1, 10.11.12.255".toList =
    some (some (.usip #v[0x0A, 0x0B, 0x0C, 0x01] #v[0x0A, 0x0B, 0x0C, 0xFF])) ∧
  assembleLine "USPORT 1234, 5678".toList = some (some (.usport 0x04D2 0x162E)) ∧
  assembleLine "RWRHDR 0x00002000, 256, 0x123456789ABCDEF0".toList =
    some (some (.rwrhdr 0x2000 0x0100 0x123456789ABCDEF0)) ∧
  assembleLine "USMAC C4:00:AD:3A:D3:6B".toList = some (some (.usmacb #v[0xC4, 0x00, 0xAD, 0x3A, 0xD3, 0x6B])) ∧
  assembleLine "RSMAC C4:00:AD:3A:D3:6B".toList = some (some (.rsmacb #v[0xC4, 0x00, 0xAD, 0x3A, 0xD3, 0x6B])) ∧
  (∀ src, assembleParts "USMAC" [src] = assembleParts "USMACB" [src]) ∧
  (∀ src, assembleParts "RSMAC" [src] = assembleParts "RSMACB" [src])

/-! ## Steps and inputs -/

/-- R6, R42: a step takes the packet that arrived first and runs the command it decodes to. -/
def Obligations.StepRunsDecodedCommand : Prop :=
  ∀ s p rest i, s.cmd = .packet p :: rest → decode p = .ok i → step s = exec i (s.setCmd rest)

/-- R116: with no input the block is idle and keeps everything (that idling is a step is the model's choice,
assumption 8). -/
def Obligations.IdleKeepsEverything : Prop := ∀ s, Quiescent s → step s = .next s

/-- R105: the one exception. A packet that is no command is dropped: the templates and `BUF` are unchanged and
the response is `01`; and no executed command answers anything but OK. -/
def Obligations.IllegalPacketHasNoEffect : Prop :=
  (∀ s p rest, s.cmd = .packet p :: rest → ¬ IsCommand p →
    ∃ t, step s = .next t ∧ OnlyAnswers [0x01] (s.setCmd rest) t) ∧
  (∀ i s t, exec i s = .next t → ∃ result, t.rsp = s.rsp ++ [0x00 :: result])

/-- R28, R110: a response is an output and not state: what was answered before, an illegal packet's `01` among it,
changes nothing of what a step does. -/
def Obligations.ResponsesAreNotState : Prop :=
  ∀ s t q, step s = .next t → step (afterResponses q s) = .next (afterResponses q t)

/-- R117, R22: `RESET` loads both default images, leaves the parameters and `BUF` alone and answers nothing; the
reset state is the state after `UCONS; RCONS`. -/
def Obligations.ResetLoadsBothTemplates : Prop :=
  (∀ s rest, s.cmd = .reset :: rest →
    ∃ t, step s = .next t ∧ t.tu.toList = udpDefaults s.cfg ∧ t.tr.toList = rdmxDefaults s.cfg ∧
      SameSurroundings (s.setCmd rest) t ∧ SameBuf s t ∧ t.rsp = s.rsp) ∧
  (∀ s t u, exec .ucons s = .next t → exec .rcons t = .next u → u.tu = s.resetBlock.tu ∧ u.tr = s.resetBlock.tr) ∧
  (∀ c, (State.resetOf c).tu.toList = udpDefaults c ∧ (State.resetOf c).tr.toList = rdmxDefaults c)

/-- R118: `RESET` during a command. No response is sent for it, the templates take their reset values, and of a
stamp's byte writes some subset has reached `BUF`, each with its final value, while all other bytes keep their
old contents. Which subset is a free value, `Config.freeReached` at the model's counter: that form is the model's
choice (assumption 9), and the statement holds whatever the value is. It speaks of an abandoned packet whose own
writes are all backed, with no writes of other agents meanwhile. -/
def Obligations.ResetAbandonsCommand : Prop :=
  ∀ s p rest, s.cmd = .packetReset p [] :: rest →
    (∀ w ∈ packetWrites p s, bufAdmits s.cfg w.1 = true) →
    ∃ t, step s = .next t ∧ t.tu.toList = udpDefaults s.cfg ∧ t.tr.toList = rdmxDefaults s.cfg ∧
      t.cfg = s.cfg ∧ t.cmd = rest ∧ t.rsp = s.rsp ∧
      (∀ k w, (packetWrites p s)[k]? = some w →
        readBuf t w.1 = if Config.freeReached s.draws k then some w.2 else readBuf s w.1) ∧
      (∀ a, (∀ w ∈ packetWrites p s, w.1 ≠ a) → readBuf t a = readBuf s a)

/-- R37: another agent's write that meets a stamp races with it and the final byte is either one, by a free
value (the form is the model's, assumption 10); outside the stamp it simply lands. `u` is what the packet alone
would have left. -/
def Obligations.RacingWriteIsEither : Prop :=
  ∀ s p a b rest u, s.cmd = .packetRacing p [(a, b)] :: rest → runPacket p (s.setCmd rest) = .next u →
    bufAdmits s.cfg a = true →
    ∃ t, step s = .next t ∧ t.tu = u.tu ∧ t.tr = u.tr ∧ t.cfg = u.cfg ∧ t.cmd = u.cmd ∧ t.rsp = u.rsp ∧
      (readBuf t a = if (∃ w ∈ packetWrites p s, w.1 = a) ∧ Config.freeAgentWins s.draws a = false
        then readBuf u a else some b) ∧
      (∀ x, x ≠ a → readBuf t x = readBuf u x)

/-- R126: a byte the host writes to `BUF` between commands (a payload byte) lands there, and the block is not
involved. -/
def Obligations.AgentWriteLands : Prop :=
  ∀ s a b rest, s.cmd = .agentWrite (a, b) :: rest → bufAdmits s.cfg a = true →
    ∃ t, step s = .next t ∧ readBuf t a = some b ∧ (∀ x, x ≠ a → readBuf t x = readBuf s x) ∧
      t.tu = s.tu ∧ t.tr = s.tr ∧ t.rsp = s.rsp ∧ SameSurroundings (s.setCmd rest) t

/-! ## Checksum Engine -/

/-- R63: `cksum20` by its formula. -/
def Obligations.ChecksumFormula : Prop :=
  ∀ h, (cksum20 h).toNat = 0xFFFF - foldOnce (foldOnce (headerSum h))

/-- R65 (the spec derives it from R63): the bounds, the closed form, and that one fold does not suffice. -/
def Obligations.ChecksumClosedForm : Prop :=
  (∀ h, headerSum h ≤ 0x8FFF7 ∧ headerSum h / 65536 ≤ 8 ∧ foldOnce (headerSum h) ≤ 0x10007 ∧
    (0x10000 ≤ foldOnce (headerSum h) → foldOnce (headerSum h) % 65536 ≤ 7 ∧
      foldOnce (foldOnce (headerSum h)) = foldOnce (headerSum h) % 65536 + 1) ∧
    (foldOnce (headerSum h) < 0x10000 → foldOnce (foldOnce (headerSum h)) = foldOnce (headerSum h)) ∧
    foldOnce (foldOnce (headerSum h)) ≤ 0xFFFF ∧
    foldOnce (foldOnce (foldOnce (headerSum h))) = foldOnce (foldOnce (headerSum h)) ∧
    (cksum20 h).toNat = 0xFFFF - (if headerSum h = 0 then 0 else (headerSum h - 1) % 0xFFFF + 1)) ∧
  (∃ h, headerSum h = 0x7FFFF ∧ foldOnce (headerSum h) = 0x10006 ∧ cksum20 h = 0xFFF8 ∧
    0xFFFF - foldOnce (headerSum h) % 65536 = 0xFFF9)

/-- R66 (the spec derives it from R63 and R65): the self-verification law, for every twenty bytes. -/
def Obligations.ChecksumSelfVerifies : Prop :=
  ∀ h, SelfVerifies (withField h (hi8 (cksum20 h)) (lo8 (cksum20 h))) ∧
    cksum20 (withField h (hi8 (cksum20 h)) (lo8 (cksum20 h))) = cksum20 h

/-- R67 (the spec derives it from R63 and R65): when the result is 0xFFFF and when it is 0x0000. -/
def Obligations.ChecksumRange : Prop :=
  ∀ h, (cksum20 h = 0xFFFF ↔ headerSum h = 0) ∧
    (cksum20 h = 0x0000 ↔ headerSum h ≠ 0 ∧ headerSum h % 0xFFFF = 0)

/-- R68 (the spec derives it from R63): the checksum field is excluded by field index, not by value. -/
def Obligations.ChecksumIgnoresItsField : Prop := ∀ h a b, cksum20 (withField h a b) = cksum20 h

/-- R64: `CKSUM` with its packet, its response and its frame. -/
def Obligations.CksumAnswersChecksum : Prop :=
  (∀ h : IpHeader, decode (0x00 :: h.toList) = .ok (.cksum h)) ∧
  (∀ h s, ∃ t, exec (.cksum h) s = .next t ∧ OnlyAnswers [0x00, hi8 (cksum20 h), lo8 (cksum20 h)] s t) ∧
  (∀ h, headerSum h = 0 → cksum20 h = 0xFFFF) ∧
  (∀ h, headerSum h ≠ 0 → headerSum h % 0xFFFF = 0 → cksum20 h = 0x0000) ∧
  (∀ h a b, cksum20 (withField h a b) = cksum20 h) ∧
  cksum20 #v[0x45, 0x00, 0x01, 0x1C, 0x00, 0x00, 0x40, 0x00, 0x40, 0x11, 0x00, 0x00,
    0x0A, 0x0B, 0x0C, 0x01, 0x0A, 0x0B, 0x0C, 0xFF] = 0x0CBC

/-! ## Byte-Order Utilities -/

/-- R70 to R72: the host-to-network commands. On a big-endian host the response carries the operand's bytes as
they are, on a little-endian host in the reverse order; nothing else changes. -/
def Obligations.HostToNetworkCommands : Prop :=
  (∀ (v : BitVec 16) s, decode (0x10 :: (be16 v).toList) = .ok (.hton16 v) ∧
    ∃ t, exec (.hton16 v) s = .next t ∧
      OnlyAnswers (0x00 :: if s.cfg.hostBigEndian then (be16 v).toList else (be16 v).toList.reverse) s t) ∧
  (∀ (v : BitVec 32) s, decode (0x11 :: (be32 v).toList) = .ok (.hton32 v) ∧
    ∃ t, exec (.hton32 v) s = .next t ∧
      OnlyAnswers (0x00 :: if s.cfg.hostBigEndian then (be32 v).toList else (be32 v).toList.reverse) s t) ∧
  (∀ (v : BitVec 64) s, decode (0x12 :: (be64 v).toList) = .ok (.hton64 v) ∧
    ∃ t, exec (.hton64 v) s = .next t ∧
      OnlyAnswers (0x00 :: if s.cfg.hostBigEndian then (be64 v).toList else (be64 v).toList.reverse) s t)

/-- R73 to R75: the network-to-host commands, "the same function". -/
def Obligations.NetworkToHostCommands : Prop :=
  (∀ (v : BitVec 16) s, decode (0x14 :: (be16 v).toList) = .ok (.ntoh16 v) ∧
    ∃ t, exec (.ntoh16 v) s = .next t ∧
      OnlyAnswers (0x00 :: if s.cfg.hostBigEndian then (be16 v).toList else (be16 v).toList.reverse) s t) ∧
  (∀ (v : BitVec 32) s, decode (0x15 :: (be32 v).toList) = .ok (.ntoh32 v) ∧
    ∃ t, exec (.ntoh32 v) s = .next t ∧
      OnlyAnswers (0x00 :: if s.cfg.hostBigEndian then (be32 v).toList else (be32 v).toList.reverse) s t) ∧
  (∀ (v : BitVec 64) s, decode (0x16 :: (be64 v).toList) = .ok (.ntoh64 v) ∧
    ∃ t, exec (.ntoh64 v) s = .next t ∧
      OnlyAnswers (0x00 :: if s.cfg.hostBigEndian then (be64 v).toList else (be64 v).toList.reverse) s t)

/-- R76 (the spec derives it from R9): the halves algorithm is the full reversal of the eight bytes. -/
def Obligations.HalvesAlgorithmReversesBytes : Prop :=
  (∀ v, bswap64 v = bswap32 (v.extractLsb' 0 32) ++ bswap32 (v.extractLsb' 32 32)) ∧
  (∀ v k, k < 8 → (bswap64 v).extractLsb' (8 * k) 8 = v.extractLsb' (8 * (7 - k)) 8) ∧
  bswap64 0x123456789ABCDEF0 = 0xF0DEBC9A78563412

/-- R77 (the spec derives it from R69): both conversions undo each other and are involutions, for both host
orders; a single conversion changes a value on a little-endian host unless its bytes are a palindrome. -/
def Obligations.ConversionsAreInvolutions : Prop :=
  ∀ c : Config,
    (∀ v, ntoh16 c (hton16 c v) = v ∧ hton16 c (ntoh16 c v) = v ∧ hton16 c (hton16 c v) = v) ∧
    (∀ v, ntoh32 c (hton32 c v) = v ∧ hton32 c (ntoh32 c v) = v ∧ hton32 c (hton32 c v) = v) ∧
    (∀ v, ntoh64 c (hton64 c v) = v ∧ hton64 c (ntoh64 c v) = v ∧ hton64 c (hton64 c v) = v) ∧
    (c.hostBigEndian = false →
      (∀ v, hton16 c v = v ↔ (be16 v).toList.reverse = (be16 v).toList) ∧
      (∀ v, hton32 c v = v ↔ (be32 v).toList.reverse = (be32 v).toList) ∧
      (∀ v, hton64 c v = v ↔ (be64 v).toList.reverse = (be64 v).toList))

/-- R78 and R33 (the spec derives both): on a host of either order, storing `hton_N(v)` leaves the big-endian
bytes of `v` in memory, and the integer `x` a host loads from memory that holds them is `hton_N(v)`, so that
`ntoh_N` of it is `v`. -/
def Obligations.ConversionsRelateStorage : Prop :=
  ∀ c : Config,
    (∀ v, hostStore c.hostBigEndian 2 (hton16 c v) = be16 v) ∧
    (∀ v, hostStore c.hostBigEndian 4 (hton32 c v) = be32 v) ∧
    (∀ v, hostStore c.hostBigEndian 8 (hton64 c v) = be64 v) ∧
    (∀ v (x : BitVec 16), hostStore c.hostBigEndian 2 x = be16 v → x = hton16 c v ∧ ntoh16 c x = v) ∧
    (∀ v (x : BitVec 32), hostStore c.hostBigEndian 4 x = be32 v → x = hton32 c v ∧ ntoh32 c x = v) ∧
    (∀ v (x : BitVec 64), hostStore c.hostBigEndian 8 x = be64 v → x = hton64 c v ∧ ntoh64 c x = v)

/-- R79 (the spec derives it from R69): each conversion works at its own width: on a little-endian host,
converting a zero-extended value is not zero-extending the converted one. -/
def Obligations.ConversionsKeepTheirWidth : Prop :=
  ∀ c : Config, c.hostBigEndian = false →
    (∀ v : BitVec 16, hton32 c (v.zeroExtend 32) = (hton16 c v).zeroExtend 32 <<< 16) ∧
    (∀ v : BitVec 32, hton64 c (v.zeroExtend 64) = (hton32 c v).zeroExtend 64 <<< 32) ∧
    (∀ v : BitVec 16, v ≠ 0 → hton32 c (v.zeroExtend 32) ≠ (hton16 c v).zeroExtend 32) ∧
    hton32 c 0x00001234 = 0x34120000

/-! ## UDP Frame Template Builder -/

/-- R81, R20: `UCONS`. The flags bytes `40 00` are the spec's own decision (D8). -/
def Obligations.UconsLoadsDefaults : Prop :=
  decode [0x20] = .ok .ucons ∧
  (∀ s, ∃ t, exec .ucons s = .next t ∧ t.tu.toList = udpDefaults s.cfg ∧ OnlyTu (fun _ => True) s t) ∧
  (∀ s t, s.tu = (State.resetOf s.cfg).tu → exec .ucons s = .next t → t.tu = s.tu) ∧
  (∀ s t u, exec .ucons s = .next t → exec .ucons t = .next u → u.tu = t.tu) ∧
  (∀ c, (State.resetOf c).tu.toList = udpDefaults c)

/-- R82: `USMAC`. -/
def Obligations.UsmacWritesBothAddresses : Prop :=
  ∀ (src dst : MacAddr) s,
    decode (0x21 :: (src.toList ++ dst.toList)) = .ok (.usmac src dst) ∧
    ∃ t, exec (.usmac src dst) s = .next t ∧
      (∀ (k : Nat) (hk : k < 6), t.tu[6 + k] = src[k] ∧ t.tu[k] = dst[k]) ∧
      OnlyTu (fun k => k < 12) s t

/-- R83: `USMACB` overwrites the destination with broadcast; it equals `USMAC` with the broadcast address. -/
def Obligations.UsmacbWritesBroadcast : Prop :=
  ∀ (src : MacAddr) s,
    decode (0x22 :: src.toList) = .ok (.usmacb src) ∧
    exec (.usmacb src) s = exec (.usmac src #v[0xFF, 0xFF, 0xFF, 0xFF, 0xFF, 0xFF]) s ∧
    ∃ t, exec (.usmacb src) s = .next t ∧
      (∀ (k : Nat) (hk : k < 6), t.tu[6 + k] = src[k] ∧ t.tu[k] = 0xFF) ∧
      OnlyTu (fun k => k < 12) s t

/-- R84: `USIP` copies the bytes verbatim, whatever the host's byte order. -/
def Obligations.UsipWritesBothAddresses : Prop :=
  ∀ (src dst : IpAddr) s,
    decode (0x23 :: (src.toList ++ dst.toList)) = .ok (.usip src dst) ∧
    ∃ t, exec (.usip src dst) s = .next t ∧
      (∀ (k : Nat) (hk : k < 4), t.tu[26 + k] = src[k] ∧ t.tu[30 + k] = dst[k]) ∧
      OnlyTu (fun k => 26 ≤ k ∧ k < 34) s t

/-- R85: `USPORT` stores both ports in network order. -/
def Obligations.UsportWritesBothPorts : Prop :=
  ∀ (sport dport : BitVec 16) s,
    decode [0x24, hi8 sport, lo8 sport, hi8 dport, lo8 dport] = .ok (.usport sport dport) ∧
    ∃ t, exec (.usport sport dport) s = .next t ∧
      t.tu[34] = hi8 sport ∧ t.tu[35] = lo8 sport ∧ t.tu[36] = hi8 dport ∧ t.tu[37] = lo8 dport ∧
      OnlyTu (fun k => 34 ≤ k ∧ k < 38) s t

/-- R86, R34: `UWRHDR` into storage completes: byte `k` of the header image stands at `(dest + k) mod 2^32`,
every other byte of `BUF` and both templates are as before, and the response is OK. -/
def Obligations.UwrhdrStampsImage : Prop :=
  ∀ dest plen s, Backed s.cfg dest 42 →
    decode (0x25 :: ((be32 dest).toList ++ (be16 plen).toList)) = .ok (.uwrhdr dest plen) ∧
    ∃ t, exec (.uwrhdr dest plen) s = .next t ∧
      (∀ (k : Nat) (hk : k < 42), readBuf t (dest + BitVec.ofNat 32 k) = some (imageU s.tu plen)[k]) ∧
      OnlyStamps dest 42 s t

/-- R87: the image byte by byte: the two lengths, the checksum of the IPv4 header with the total length in place,
and the template's own bytes everywhere else. -/
def Obligations.UdpImageBytes : Prop :=
  ∀ (tu : TemplateU) (plen : BitVec 16),
    let i := imageU tu plen
    i[16] = hi8 (28 + plen) ∧ i[17] = lo8 (28 + plen) ∧ i[38] = hi8 (8 + plen) ∧ i[39] = lo8 (8 + plen) ∧
    (∀ h : IpHeader, (∀ (k : Nat) (hk : k < 20), k ≠ 10 → k ≠ 11 → h[k] = i[14 + k]) →
      i[24] = hi8 (cksum20 h) ∧ i[25] = lo8 (cksum20 h)) ∧
    (∀ (k : Nat) (hk : k < 42), k ∉ [16, 17, 24, 25, 38, 39] → i[k] = tu[k])

/-- R89: the two length fields as integers, in the contract range and beyond it. -/
def Obligations.UdpLengthsAndContractRange : Prop :=
  ∀ (tu : TemplateU) (plen : BitVec 16),
    let i := imageU tu plen
    let total := (u16 i[16] i[17]).toNat
    let udp := (u16 i[38] i[39]).toNat
    (plen.toNat ≤ 65507 → total = 28 + plen.toNat ∧ udp = 8 + plen.toNat) ∧
    (65508 ≤ plen.toNat → plen.toNat ≤ 65527 → total = 28 + plen.toNat - 65536 ∧ udp = 8 + plen.toNat) ∧
    (65528 ≤ plen.toNat → total = 28 + plen.toNat - 65536 ∧ udp = 8 + plen.toNat - 65536) ∧
    SelfVerifies (slice i 14 20 (by decide))

/-- R91 (the spec derives it from R87 and R66): every stamped UDP header verifies; that its checksum is not zero
is no law. -/
def Obligations.StampedUdpHeaderVerifies : Prop :=
  (∀ dest plen s t, exec (.uwrhdr dest plen) s = .next t → ∀ h : IpHeader,
    (∀ (k : Nat) (hk : k < 20), readBuf t (dest + BitVec.ofNat 32 (14 + k)) = some h[k]) → SelfVerifies h) ∧
  (∃ c src dst plen t u, exec (.usip src dst) (State.resetOf c) = .next t ∧
    exec (.uwrhdr 0 plen) t = .next u ∧ readBuf u 24 = some 0x00 ∧ readBuf u 25 = some 0x00)

/-- R92 (the spec derives it from R87 and R23): the fixed content of every stamped UDP header. -/
def Obligations.StampedUdpHeaderFixedContent : Prop :=
  ∀ dest plen s t, BlockInv s → exec (.uwrhdr dest plen) s = .next t →
    ∀ x ∈ fixedBytes s.cfg, readBuf t (dest + BitVec.ofNat 32 x.1) = some x.2

/-- R88 (the spec derives it from R86 and R87): any two stamps with the same payload length and the template as
it was write the same bytes, whatever `dest` each uses and whatever happened between them; a stamp repeated at
once changes nothing. -/
def Obligations.UdpStampIsIdempotent : Prop :=
  (∀ d d' plen s t s' u, exec (.uwrhdr d plen) s = .next t → s'.tu = t.tu → exec (.uwrhdr d' plen) s' = .next u →
    ∀ k < 42, readBuf u (d' + BitVec.ofNat 32 k) = readBuf t (d + BitVec.ofNat 32 k)) ∧
  (∀ d plen s t u, Memory.wf s.buf → exec (.uwrhdr d plen) s = .next t → exec (.uwrhdr d plen) t = .next u →
    u.tu = s.tu ∧ u.buf = t.buf)

/-- R90 (the spec derives it from R81 to R85): each UDP setter changes only its field's bytes; setters on
different fields commute; the last of several setters on the same field wins. -/
def Obligations.UdpSettersCommute : Prop :=
  (∀ i f s, udpField i = some f → ∃ t, exec i s = .next t ∧ OnlyTu (inField f) s t) ∧
  (∀ i j f g s t u t' u', udpField i = some f → udpField j = some g → f ≠ g →
    exec i s = .next t → exec j t = .next u → exec j s = .next t' → exec i t' = .next u' → u.tu = u'.tu) ∧
  (∀ i j f s t u t', udpField i = some f → udpField j = some f →
    exec i s = .next t → exec j t = .next u → exec j s = .next t' → u.tu = t'.tu)

/-! ## RDMX Frame Template Builder -/

/-- R93, R21: `RCONS`. -/
def Obligations.RconsLoadsDefaults : Prop :=
  decode [0x30] = .ok .rcons ∧
  (∀ s, ∃ t, exec .rcons s = .next t ∧ t.tr.toList = rdmxDefaults s.cfg ∧ OnlyTr (fun _ => True) s t) ∧
  (∀ s t, s.tr = (State.resetOf s.cfg).tr → exec .rcons s = .next t → t.tr = s.tr) ∧
  (∀ s t u, exec .rcons s = .next t → exec .rcons t = .next u → u.tr = t.tr) ∧
  (∀ c, (State.resetOf c).tr.toList = rdmxDefaults c)

/-- R94: `RSMAC`. -/
def Obligations.RsmacWritesBothAddresses : Prop :=
  ∀ (src dst : MacAddr) s,
    decode (0x31 :: (src.toList ++ dst.toList)) = .ok (.rsmac src dst) ∧
    ∃ t, exec (.rsmac src dst) s = .next t ∧
      (∀ (k : Nat) (hk : k < 6), t.tr[6 + k] = src[k] ∧ t.tr[k] = dst[k]) ∧
      OnlyTr (fun k => k < 12) s t

/-- R95: `RSMACB`. -/
def Obligations.RsmacbWritesBroadcast : Prop :=
  ∀ (src : MacAddr) s,
    decode (0x32 :: src.toList) = .ok (.rsmacb src) ∧
    ∃ t, exec (.rsmacb src) s = .next t ∧
      (∀ (k : Nat) (hk : k < 6), t.tr[6 + k] = src[k] ∧ t.tr[k] = 0xFF) ∧
      OnlyTr (fun k => k < 12) s t

/-- R96: `RSIP`. -/
def Obligations.RsipWritesBothAddresses : Prop :=
  ∀ (src dst : IpAddr) s,
    decode (0x33 :: (src.toList ++ dst.toList)) = .ok (.rsip src dst) ∧
    ∃ t, exec (.rsip src dst) s = .next t ∧
      (∀ (k : Nat) (hk : k < 4), t.tr[26 + k] = src[k] ∧ t.tr[30 + k] = dst[k]) ∧
      OnlyTr (fun k => 26 ≤ k ∧ k < 34) s t

/-- R97: `RSPORT` stores the source port and rewrites the fixed destination port. -/
def Obligations.RsportWritesSourcePort : Prop :=
  ∀ (sport : BitVec 16) s,
    decode [0x34, hi8 sport, lo8 sport] = .ok (.rsport sport) ∧
    ∃ t, exec (.rsport sport) s = .next t ∧
      t.tr[34] = hi8 sport ∧ t.tr[35] = lo8 sport ∧
      t.tr[36] = hi8 s.cfg.rdmxDstPort ∧ t.tr[37] = lo8 s.cfg.rdmxDstPort ∧
      OnlyTr (fun k => 34 ≤ k ∧ k < 38) s t

/-- R98, R34: `RWRHDR` into storage completes. -/
def Obligations.RwrhdrStampsImage : Prop :=
  ∀ dest plen target s, Backed s.cfg dest 64 →
    decode (0x35 :: ((be32 dest).toList ++ (be16 plen).toList ++ (be64 target).toList)) =
      .ok (.rwrhdr dest plen target) ∧
    ∃ t, exec (.rwrhdr dest plen target) s = .next t ∧
      (∀ (k : Nat) (hk : k < 64), readBuf t (dest + BitVec.ofNat 32 k) = some (imageR s.tr plen target)[k]) ∧
      OnlyStamps dest 64 s t

/-- R99: the image byte by byte. -/
def Obligations.RdmxImageBytes : Prop :=
  ∀ (tr : TemplateR) (plen : BitVec 16) (target : BitVec 64),
    let i := imageR tr plen target
    i[16] = hi8 (50 + plen) ∧ i[17] = lo8 (50 + plen) ∧ i[38] = hi8 (30 + plen) ∧ i[39] = lo8 (30 + plen) ∧
    (∀ (k : Nat) (hk : k < 8), i[44 + k] = target.extractLsb' (56 - 8 * k) 8) ∧
    (∀ h : IpHeader, (∀ (k : Nat) (hk : k < 20), k ≠ 10 → k ≠ 11 → h[k] = i[14 + k]) →
      i[24] = hi8 (cksum20 h) ∧ i[25] = lo8 (cksum20 h)) ∧
    (∀ (k : Nat) (hk : k < 64), k ∉ [16, 17, 24, 25, 38, 39, 44, 45, 46, 47, 48, 49, 50, 51] → i[k] = tr[k])

/-- R101: the two length fields as integers, in the RDMX contract range and beyond it. -/
def Obligations.RdmxLengthsAndContractRange : Prop :=
  ∀ (tr : TemplateR) (plen : BitVec 16) (target : BitVec 64),
    let i := imageR tr plen target
    let total := (u16 i[16] i[17]).toNat
    let udp := (u16 i[38] i[39]).toNat
    (total = 50 + plen.toNat ∧ udp = 30 + plen.toNat ↔ plen.toNat ≤ 65485) ∧
    (65486 ≤ plen.toNat → plen.toNat ≤ 65505 → total = 50 + plen.toNat - 65536 ∧ udp = 30 + plen.toNat) ∧
    (65506 ≤ plen.toNat → total = 50 + plen.toNat - 65536 ∧ udp = 30 + plen.toNat - 65536)

/-- R103 (the spec derives it from R99 and R66): every stamped RDMX header verifies. -/
def Obligations.StampedRdmxHeaderVerifies : Prop :=
  ∀ dest plen target s t, exec (.rwrhdr dest plen target) s = .next t → ∀ h : IpHeader,
    (∀ (k : Nat) (hk : k < 20), readBuf t (dest + BitVec.ofNat 32 (14 + k)) = some h[k]) → SelfVerifies h

/-- R104 (the spec derives it from R99, R87, R23 and R25): the fixed content of every stamped RDMX header, and
its relation to the UDP variant: where the templates agree on bytes 0 to 35, it is the UDP header of a payload
22 bytes longer. -/
def Obligations.StampedRdmxHeaderContent : Prop :=
  (∀ dest plen target s t, BlockInv s → exec (.rwrhdr dest plen target) s = .next t →
    (∀ x ∈ fixedBytes s.cfg ++ rdmxFixedBytes s.cfg ++ rdmxPortBytes s.cfg,
      readBuf t (dest + BitVec.ofNat 32 x.1) = some x.2) ∧
    (∀ k < 8, readBuf t (dest + BitVec.ofNat 32 (44 + k)) = some (target.extractLsb' (56 - 8 * k) 8))) ∧
  (∀ (tu : TemplateU) (tr : TemplateR) (plen : BitVec 16) (target : BitVec 64),
    (∀ (k : Nat) (hk : k < 36), tu[k] = tr[k]) →
    ∀ (k : Nat) (hk : k < 36), (imageR tr plen target)[k] = (imageU tu (plen + 22))[k])

/-- R100 (the spec derives it from R98 and R99): stamps with the same operands and the template as it was write
the same bytes, whatever `dest` each uses; a stamp leaves the template alone, and its target address never leaks
into the next. -/
def Obligations.RdmxStampIsIdempotent : Prop :=
  (∀ d d' plen target s t s' u,
    exec (.rwrhdr d plen target) s = .next t → s'.tr = t.tr → exec (.rwrhdr d' plen target) s' = .next u →
    ∀ k < 64, readBuf u (d' + BitVec.ofNat 32 k) = readBuf t (d + BitVec.ofNat 32 k)) ∧
  (∀ d d' plen plen' target target' s t u,
    exec (.rwrhdr d plen target) s = .next t → exec (.rwrhdr d' plen' target') t = .next u →
    t.tr = s.tr ∧
      ∀ k < 8, readBuf u (d' + BitVec.ofNat 32 (44 + k)) = some (target'.extractLsb' (56 - 8 * k) 8))

/-- R102 (the spec derives it from R93 to R97): each RDMX setter changes only its field's bytes, and in a state
the block can be in the destination port keeps its value; setters on different fields commute; the last setter
on a field wins; bytes 42 to 63 are written by `RCONS` alone. -/
def Obligations.RdmxSettersCommute : Prop :=
  (∀ i f s, rdmxField i = some f → ∃ t, exec i s = .next t ∧ OnlyTr (inField f) s t ∧
    (BlockInv s → t.tr[36] = s.tr[36] ∧ t.tr[37] = s.tr[37])) ∧
  (∀ i j f g s t u t' u', rdmxField i = some f → rdmxField j = some g → f ≠ g →
    exec i s = .next t → exec j t = .next u → exec j s = .next t' → exec i t' = .next u' → u.tr = u'.tr) ∧
  (∀ i j f s t u t', rdmxField i = some f → rdmxField j = some f →
    exec i s = .next t → exec j t = .next u → exec j s = .next t' → u.tr = t'.tr) ∧
  (∀ i s t, i ≠ .rcons → exec i s = .next t → ∀ (k : Nat) (hk : k < 64), 42 ≤ k → t.tr[k] = s.tr[k])

/-! ## The whole machine -/

/-- R22, R23 to R25: the invariant holds at reset, for every configuration and every contents of `BUF`. -/
def Obligations.ResetStatesSatisfyInvariant : Prop :=
  ∀ c m, Memory.wf m → BlockInv ((State.resetOf c).setBuf m)

/-- R23 to R25: every step keeps the invariant, whatever input it takes, from every state that has it. -/
def Obligations.EveryStepKeepsInvariant : Prop := ∀ s t, BlockInv s → step s = .next t → BlockInv t

/-- R23, R24, R25 (the spec derives them from R15 to R22): the fixed fields, the per-frame fields and the RDMX
destination port in every reachable state. -/
def Obligations.ReachableTemplatesHoldFixedFields : Prop :=
  ∀ s, Reachable s →
    HoldsBytes s.tu (fixedBytes s.cfg) ∧ HoldsBytes s.tr (fixedBytes s.cfg ++ rdmxFixedBytes s.cfg) ∧
    HoldsBytes s.tu perFrameBytes ∧ HoldsBytes s.tr (perFrameBytes ++ targetBytes) ∧
    HoldsBytes s.tr (rdmxPortBytes s.cfg)

/-- R5: no step changes a parameter. -/
def Obligations.ParametersNeverChange : Prop := ∀ s t, step s = .next t → t.cfg = s.cfg

/-- R13, R19, R29: only the UDP construct and setters write `TU`, only the RDMX ones `TR`, only the stamps `BUF`;
no command on one template changes the other. -/
def Obligations.OnlyNamedCommandsWrite : Prop :=
  ∀ i s t, exec i s = .next t →
    (¬ WritesTu i → t.tu = s.tu) ∧ (¬ WritesTr i → t.tr = s.tr) ∧ (¬ IsStamp i → t.buf = s.buf) ∧
    (WritesTu i → t.tr = s.tr) ∧ (WritesTr i → t.tu = s.tu)

/-- R10, R36: a command performs exactly its `Writes`: none, but 42 for `UWRHDR` and 64 for `RWRHDR`, each
address written once. -/
def Obligations.CommandsPerformTheirWrites : Prop :=
  (∀ i s t, exec i s = .next t → t.buf = Memory.writeAll s.buf (writesOf i s)) ∧
  (∀ i s, (writesOf i s).Pairwise fun x y => x.1 ≠ y.1) ∧
  (∀ i s, ¬ IsStamp i → writesOf i s = []) ∧
  (∀ dest plen s, (writesOf (.uwrhdr dest plen) s).length = 42) ∧
  (∀ dest plen target s, (writesOf (.rwrhdr dest plen target) s).length = 64)

/-- R10: every command has exactly one outcome and completes, but for a stamp with an address that no storage
backs (R38, R36), which stops by a name of its own: of what R38 allows the model chose that (assumption 4). -/
def Obligations.CommandsStopOnlyOnUnbackedStamp : Prop :=
  (∀ i s, (∀ w ∈ writesOf i s, bufAdmits s.cfg w.1 = true) → ∃ t, exec i s = .next t) ∧
  (∀ i s, (∃ w ∈ writesOf i s, bufKind s.cfg w.1 = some .device) → exec i s = .refused .deviceWrite) ∧
  (∀ i s, (∃ w ∈ writesOf i s, bufAdmits s.cfg w.1 = false) →
    (∀ w ∈ writesOf i s, bufKind s.cfg w.1 ≠ some .device) → exec i s = .fault .unbackedBuf)

/-- R37: the order of the byte writes of a stamp is left open, and every order leaves the same `BUF`. -/
def Obligations.StampWriteOrderLeavesSameBuf : Prop :=
  ∀ i s ws, ws.Perm (writesOf i s) → Memory.wf s.buf →
    Memory.writeAll s.buf ws = Memory.writeAll s.buf (writesOf i s)

/-- R42 b: two stamps to overlapping ranges leave, at each overlapped address, the byte of the later stamp, and
elsewhere each its own. -/
def Obligations.LaterStampWins : Prop :=
  ∀ i j s t u, exec i s = .next t → exec j t = .next u →
    (∀ w ∈ writesOf j t, readBuf u w.1 = some w.2) ∧
    (∀ w ∈ writesOf i s, (∀ x ∈ writesOf j t, x.1 ≠ w.1) → readBuf u w.1 = some w.2)

/-- R78, R63, R84: only the byte-order commands depend on the byte order of the host. -/
def Obligations.HeadersIgnoreHostByteOrder : Prop :=
  ∀ i s t b, ¬ IsConversion i → exec i s = .next t → exec i (forHost b s) = .next (forHost b t)
end

