-- ==== Sys2Proof/Laws/Bytes.lean ====
section
/-!
SUPPORT. The laws of byte arrays and of the integers in them.
-/

namespace Sys2Proof.Machine

/-- A byte after an overwrite: the new one inside the range, the old one outside. -/
@[simp] theorem getElem_patch {n m : Nat} (t : Vector Byte n) (a : Nat) (b : Vector Byte m) (i : Nat) (hi : i < n) :
    (patch t a b)[i] = if h : a ≤ i ∧ i - a < m then b[i - a]'h.2 else t[i] := by
  simp [patch]

@[simp] theorem getElem_slice {n : Nat} (t : Vector Byte n) (a len : Nat) (h : a + len ≤ n) (k : Nat) (hk : k < len) :
    (slice t a len h)[k] = t[a + k] := by
  simp [slice]

@[simp] theorem getElem_bytesAt (p : Packet) (a n k : Nat) (hk : k < n) : (bytesAt p a n)[k] = byteAt p (a + k) := by
  simp [bytesAt]

@[simp] theorem be16_zero (v : BitVec 16) : (be16 v)[0] = v.extractLsb' 8 8 := rfl

@[simp] theorem be16_one (v : BitVec 16) : (be16 v)[1] = v.extractLsb' 0 8 := rfl

/-- R9: `u16` reads back what `be16` lays out. -/
@[simp] theorem u16_be16 (v : BitVec 16) : u16 (v.extractLsb' 8 8) (v.extractLsb' 0 8) = v := by
  apply BitVec.eq_of_getLsbD_eq
  intro i hi
  simp only [u16, BitVec.getLsbD_append, BitVec.getLsbD_extractLsb']
  by_cases h : i < 8
  · simp [h]
  · simp [h, show i - 8 < 8 by omega, show 8 + (i - 8) = i by omega]

@[simp] theorem u32_be32 (v : BitVec 32) :
    u32 (v.extractLsb' 24 8) (v.extractLsb' 16 8) (v.extractLsb' 8 8) (v.extractLsb' 0 8) = v := by
  apply BitVec.eq_of_getLsbD_eq
  intro i hi
  simp only [u32, u16, BitVec.getLsbD_append, BitVec.getLsbD_extractLsb']
  by_cases h1 : i < 8
  · simp [h1, show i < 16 by omega]
  by_cases h2 : i < 16
  · simp [h1, h2, show i - 8 < 8 by omega, show 8 + (i - 8) = i by omega]
  by_cases h3 : i < 24
  · simp [h2, show i - 16 < 8 by omega, show 16 + (i - 16) = i by omega]
  · simp [h2, show ¬ i - 16 < 8 by omega, show i - 16 - 8 < 8 by omega, show 24 + (i - 16 - 8) = i by omega]

theorem u64_eq_append (b0 b1 b2 b3 b4 b5 b6 b7 : Byte) :
    u64 b0 b1 b2 b3 b4 b5 b6 b7 = u32 b0 b1 b2 b3 ++ u32 b4 b5 b6 b7 := rfl

/-- A slice of a slice. -/
theorem extractLsb'_extractLsb' {w : Nat} (v : BitVec w) {a b n m : Nat} (h : a + m ≤ n) :
    (v.extractLsb' b n).extractLsb' a m = v.extractLsb' (b + a) m := by
  ext i hi
  simp [show a + i < n by omega, Nat.add_assoc]

@[simp] theorem u64_be64 (v : BitVec 64) :
    u64 (v.extractLsb' 56 8) (v.extractLsb' 48 8) (v.extractLsb' 40 8) (v.extractLsb' 32 8)
      (v.extractLsb' 24 8) (v.extractLsb' 16 8) (v.extractLsb' 8 8) (v.extractLsb' 0 8) = v := by
  have hhi := u32_be32 (v.extractLsb' 32 32)
  have hlo := u32_be32 (v.extractLsb' 0 32)
  simp only [extractLsb'_extractLsb' v (show 24 + 8 ≤ 32 by omega), extractLsb'_extractLsb' v (show 16 + 8 ≤ 32 by omega),
    extractLsb'_extractLsb' v (show 8 + 8 ≤ 32 by omega), extractLsb'_extractLsb' v (show 0 + 8 ≤ 32 by omega),
    Nat.reduceAdd] at hhi hlo
  rw [u64_eq_append, hhi, hlo]
  apply BitVec.eq_of_getLsbD_eq
  intro i hi
  simp only [BitVec.getLsbD_append, BitVec.getLsbD_extractLsb']
  by_cases h : i < 32
  · simp [h]
  · simp [h, show i - 32 < 32 by omega, show 32 + (i - 32) = i by omega]

/-- The two halves of an append. -/
theorem extractLsb'_append_low {w u : Nat} (x : BitVec w) (y : BitVec u) {k : Nat} (n : Nat) (h : k + n ≤ u) :
    (x ++ y).extractLsb' k n = y.extractLsb' k n := by
  apply BitVec.eq_of_getLsbD_eq
  intro i hi
  simp only [BitVec.getLsbD_extractLsb', BitVec.getLsbD_append]
  simp [show k + i < u by omega]

theorem extractLsb'_append_high {w u : Nat} (x : BitVec w) (y : BitVec u) (k n : Nat) :
    (x ++ y).extractLsb' (u + k) n = x.extractLsb' k n := by
  apply BitVec.eq_of_getLsbD_eq
  intro i hi
  simp only [BitVec.getLsbD_extractLsb', BitVec.getLsbD_append]
  simp [show ¬ u + k + i < u by omega, show u + k + i - u = k + i by omega]

/-- R9, R58: `be16` lays out what `u16` reads. -/
@[simp] theorem be16_u16 (b0 b1 : Byte) : be16 (u16 b0 b1) = #v[b0, b1] := by
  have h0 : (u16 b0 b1).extractLsb' 8 8 = b0 := by
    rw [u16, extractLsb'_append_high b0 b1 0 8, BitVec.extractLsb'_eq_self]
  have h1 : (u16 b0 b1).extractLsb' 0 8 = b1 := by
    rw [u16, extractLsb'_append_low b0 b1 8 (by omega), BitVec.extractLsb'_eq_self]
  simp [be16, h0, h1]

@[simp] theorem be32_u32 (b0 b1 b2 b3 : Byte) : be32 (u32 b0 b1 b2 b3) = #v[b0, b1, b2, b3] := by
  have high := extractLsb'_append_high (u16 b0 b1) (u16 b2 b3)
  have low := fun k => extractLsb'_append_low (u16 b0 b1) (u16 b2 b3) (k := k) 8
  have hh := be16_u16 b0 b1
  have hl := be16_u16 b2 b3
  simp only [be16, Vector.mk.injEq, Array.mk.injEq, List.cons.injEq, and_true] at hh hl
  have h0 := (high 8 8).trans hh.1
  have h1 := (high 0 8).trans hh.2
  have h2 := (low 8 (by omega)).trans hl.1
  have h3 := (low 0 (by omega)).trans hl.2
  simp only [Nat.reduceAdd] at h0 h1
  simp only [be32, u32, h0, h1, h2, h3]

@[simp] theorem be64_u64 (b0 b1 b2 b3 b4 b5 b6 b7 : Byte) :
    be64 (u64 b0 b1 b2 b3 b4 b5 b6 b7) = #v[b0, b1, b2, b3, b4, b5, b6, b7] := by
  have high := extractLsb'_append_high (u32 b0 b1 b2 b3) (u32 b4 b5 b6 b7)
  have low := fun k => extractLsb'_append_low (u32 b0 b1 b2 b3) (u32 b4 b5 b6 b7) (k := k) 8
  have hh := be32_u32 b0 b1 b2 b3
  have hl := be32_u32 b4 b5 b6 b7
  simp only [be32, Vector.mk.injEq, Array.mk.injEq, List.cons.injEq, and_true] at hh hl
  have h0 := (high 24 8).trans hh.1
  have h1 := (high 16 8).trans hh.2.1
  have h2 := (high 8 8).trans hh.2.2.1
  have h3 := (high 0 8).trans hh.2.2.2
  have h4 := (low 24 (by omega)).trans hl.1
  have h5 := (low 16 (by omega)).trans hl.2.1
  have h6 := (low 8 (by omega)).trans hl.2.2.1
  have h7 := (low 0 (by omega)).trans hl.2.2.2
  simp only [Nat.reduceAdd] at h0 h1 h2 h3
  simp only [be64, u64, h0, h1, h2, h3, h4, h5, h6, h7]

/-- The most significant byte of `u16` is the first. -/
theorem toNat_u16 (b0 b1 : Byte) : (u16 b0 b1).toNat = b0.toNat * 256 + b1.toNat := by
  rw [u16, BitVec.toNat_append, ← Nat.shiftLeft_add_eq_or_of_lt b1.isLt, Nat.shiftLeft_eq]

end Sys2Proof.Machine
end

