-- ==== Sys2Proof/Laws/Decode.lean ====
section
/-!
SUPPORT. What the decoder can do, and how its operand readers meet the packets of the encoder.
-/

namespace Sys2Proof

open Sys2Proof.Machine

/-- Decoding a packet of an assigned opcode byte with the right length. -/
theorem decode_of_assigned {op : Byte} {ops : List Byte} {n : Nat} {i : Instr} (hn : opcodeLength op = some n)
    (hi : assembleCmd op (op :: ops) = some i) (hl : ops.length + 1 = n) : decode (op :: ops) = .ok i := by
  simp [decode, hn, hi, hl]

/-- What a packet that decodes is. -/
theorem decode_ok {p : Packet} {i : Instr} (h : decode p = .ok i) :
    ∃ op ops, p = op :: ops ∧ opcodeLength op = some p.length ∧ assembleCmd op p = some i := by
  unfold decode at h
  split at h
  · cases h
  · split at h
    · split at h
      · rename_i op ops _ _ n j hn hj hl
        cases h
        exact ⟨op, ops, rfl, hl ▸ hn, hj⟩
      · cases h
    · cases h

/-- An opcode byte has a length exactly where it has a command. -/
theorem assembleCmd_isSome (op : Byte) (p : Packet) :
    (assembleCmd op p).isSome = (opcodeLength op).isSome := by
  have key : ∀ n : Fin 256, (assembleCmd (BitVec.ofFin n) p).isSome = (opcodeLength (BitVec.ofFin n)).isSome := by
    intro n
    fin_cases n <;> rfl
  exact key op.toFin

@[simp] theorem byteAt_zero (b : Byte) (p : Packet) : byteAt (b :: p) 0 = b := rfl

@[simp] theorem byteAt_succ (b : Byte) (p : Packet) (k : Nat) : byteAt (b :: p) (k + 1) = byteAt p k := rfl

/-- A byte array written after the opcode byte is read back. -/
theorem bytesAt_first {n : Nat} (v : Vector Byte n) (op : Byte) (p : Packet) :
    bytesAt (op :: (v.toList ++ p)) 1 n = v := by
  ext k hk
  simp [bytesAt, byteAt, Nat.add_comm 1 k, List.getElem?_append, hk]

theorem bytesAt_only {n : Nat} (v : Vector Byte n) (op : Byte) : bytesAt (op :: v.toList) 1 n = v := by
  simpa using bytesAt_first v op []

/-- A byte array written after another one is read back. -/
theorem bytesAt_second {n m : Nat} (v : Vector Byte n) (w : Vector Byte m) (op : Byte) :
    bytesAt (op :: (v.toList ++ w.toList)) (n + 1) m = w := by
  ext k hk
  have : n + 1 + k = (n + k) + 1 := by omega
  simp [bytesAt, byteAt, this, hk]

/-- The bytes of a byte-array operand, in packet order. -/
theorem toList_bytesAt (p : Packet) (a n : Nat) : (bytesAt p a n).toList = (List.range n).map fun k => byteAt p (a + k) := by
  apply List.ext_getElem <;> simp [bytesAt]

end Sys2Proof
end

