-- ==== Sys2Proof/Laws/Memory.lean ====
section
/-!
SUPPORT. The laws of `BUF`: reading after writing, and the canonical form.
-/

namespace Sys2Proof.Machine

@[simp] theorem Memory.read_nil (a : Nat) : Memory.read [] a = none := rfl

/-- Reading after one write. -/
theorem Memory.read_write (m : Memory) (a b : Nat) (v : Byte) :
    Memory.read (Memory.write m a v) b = if b = a then some v else Memory.read m b := by
  induction m with
  | nil => rfl
  | cons c m ih =>
    unfold Memory.write
    split
    · rfl
    · split
      · rename_i h
        subst h
        simp only [Memory.read]
        split <;> rfl
      · rename_i h1 h2
        simp only [Memory.read, ih]
        split
        · rename_i h3
          subst h3
          rw [if_neg]
          omega
        · rfl

theorem Memory.read_write_same (m : Memory) (a : Nat) (v : Byte) :
    Memory.read (Memory.write m a v) a = some v := by
  rw [Memory.read_write, if_pos rfl]

theorem Memory.read_write_other (m : Memory) {a b : Nat} (h : b ≠ a) (v : Byte) :
    Memory.read (Memory.write m a v) b = Memory.read m b := by
  rw [Memory.read_write, if_neg h]

/-- Every entry after a write is the written one or an old one. -/
theorem Memory.mem_write {m : Memory} {a : Nat} {v : Byte} {d : Host.Cell} (h : d ∈ Memory.write m a v) :
    d = (a, v) ∨ d ∈ m := by
  induction m with
  | nil => simpa [Memory.write] using h
  | cons c m ih =>
    unfold Memory.write at h
    split at h
    · simpa using h
    · split at h
      · rcases List.mem_cons.mp h with h | h
        · exact .inl h
        · exact .inr (List.mem_cons_of_mem _ h)
      · rcases List.mem_cons.mp h with h | h
        · exact .inr (h ▸ List.mem_cons_self)
        · exact (ih h).imp_right (List.mem_cons_of_mem _)

/-- A write keeps the canonical form. -/
theorem Memory.wf_write {m : Memory} (hm : Memory.wf m) {a : Nat} (ha : a < 2 ^ 32) (v : Byte) :
    Memory.wf (Memory.write m a v) := by
  refine ⟨?_, fun d hd => ?_⟩
  · induction m with
    | nil => simp [Memory.write]
    | cons c m ih =>
      obtain ⟨hp, hb⟩ := hm
      obtain ⟨hc, hp'⟩ := List.pairwise_cons.mp hp
      unfold Memory.write
      split
      · rename_i h
        refine List.pairwise_cons.mpr ⟨fun d hd => ?_, hp⟩
        rcases List.mem_cons.mp hd with rfl | hd
        · exact h
        · exact lt_trans h (hc d hd)
      · split
        · rename_i h
          exact List.pairwise_cons.mpr ⟨fun d hd => h ▸ hc d hd, hp'⟩
        · refine List.pairwise_cons.mpr ⟨fun d hd => ?_, ih ⟨hp', fun d hd => hb d (List.mem_cons_of_mem _ hd)⟩⟩
          rcases Memory.mem_write hd with rfl | hd
          · show c.1 < a
            omega
          · exact hc d hd
  · rcases Memory.mem_write hd with rfl | hd
    · exact ha
    · exact hm.2 d hd

@[simp] theorem Memory.writeAll_nil (m : Memory) : Memory.writeAll m [] = m := rfl

theorem Memory.writeAll_cons (m : Memory) (w : BufWrite) (ws : List BufWrite) :
    Memory.writeAll m (w :: ws) = Memory.writeAll (Memory.write m w.1.toNat w.2) ws := rfl

theorem Memory.writeAll_append (m : Memory) (us ws : List BufWrite) :
    Memory.writeAll m (us ++ ws) = Memory.writeAll (Memory.writeAll m us) ws := by
  simp [Memory.writeAll, List.foldl_append]

theorem Memory.wf_nil : Memory.wf [] := by simp [Memory.wf]

/-- Byte writes at `BUF` addresses keep the canonical form. -/
theorem Memory.wf_writeAll {m : Memory} (hm : Memory.wf m) (ws : List BufWrite) :
    Memory.wf (Memory.writeAll m ws) := by
  induction ws generalizing m with
  | nil => exact hm
  | cons w ws ih => exact ih (Memory.wf_write hm w.1.isLt w.2)

/-- An address that no write names keeps its byte. -/
theorem Memory.read_writeAll_other (m : Memory) {ws : List BufWrite} {a : Addr} (h : ∀ w ∈ ws, w.1 ≠ a) :
    Memory.read (Memory.writeAll m ws) a.toNat = Memory.read m a.toNat := by
  induction ws generalizing m with
  | nil => rfl
  | cons w ws ih =>
    rw [Memory.writeAll_cons, ih _ fun x hx => h x (List.mem_cons_of_mem _ hx), Memory.read_write_other]
    intro he
    exact h w List.mem_cons_self (BitVec.eq_of_toNat_eq he.symm)

/-- Where the written addresses are distinct, each holds its byte afterwards. -/
theorem Memory.read_writeAll_mem (m : Memory) {ws : List BufWrite} (hd : ws.Pairwise fun x y => x.1 ≠ y.1)
    {w : BufWrite} (hw : w ∈ ws) : Memory.read (Memory.writeAll m ws) w.1.toNat = some w.2 := by
  induction ws generalizing m with
  | nil => cases hw
  | cons x ws ih =>
    obtain ⟨hx, hd'⟩ := List.pairwise_cons.mp hd
    rw [Memory.writeAll_cons]
    rcases List.mem_cons.mp hw with rfl | hw
    · rw [Memory.read_writeAll_other _ fun y hy => (hx y hy).symm, Memory.read_write_same]
    · exact ih _ hd' hw

/-- Canonical memories that read alike are equal. -/
theorem Memory.eq_of_read {m m' : Memory} (h : m.Pairwise fun c d => c.1 < d.1)
    (h' : m'.Pairwise fun c d => c.1 < d.1) (hr : ∀ a, Memory.read m a = Memory.read m' a) : m = m' := by
  have low : ∀ {c : Host.Cell} {l : Memory}, (c :: l).Pairwise (fun c d => c.1 < d.1) → ∀ a ≤ c.1,
      Memory.read l a = none := by
    intro c l hl a ha
    induction l with
    | nil => rfl
    | cons d l ih =>
      obtain ⟨h1, h2⟩ := List.pairwise_cons.mp hl
      have hcd := h1 d List.mem_cons_self
      rw [Memory.read, if_neg (by omega)]
      exact ih (List.pairwise_cons.mpr ⟨fun e he => h1 e (List.mem_cons_of_mem _ he), (List.pairwise_cons.mp h2).2⟩)
  induction m generalizing m' with
  | nil =>
    cases m' with
    | nil => rfl
    | cons c m' => simpa [Memory.read] using hr c.1
  | cons c m ih =>
    cases m' with
    | nil => simpa [Memory.read] using hr c.1
    | cons d m' =>
      have hcd : c.1 = d.1 := by
        rcases lt_trichotomy c.1 d.1 with hlt | heq | hlt
        · have := hr c.1
          rw [Memory.read, if_pos rfl, Memory.read, if_neg (by omega),
            low h' c.1 (by omega)] at this
          cases this
        · exact heq
        · have := hr d.1
          rw [Memory.read, if_neg (by omega), low h d.1 (by omega), Memory.read, if_pos rfl] at this
          cases this
      have hv := hr c.1
      rw [Memory.read, if_pos rfl, Memory.read, if_pos hcd] at hv
      have htail : ∀ a, Memory.read m a = Memory.read m' a := by
        intro a
        by_cases ha : a ≤ c.1
        · rw [low h a ha, low h' a (hcd ▸ ha)]
        · have := hr a
          rwa [Memory.read, if_neg (by omega), Memory.read, if_neg (by omega)] at this
      rw [ih (List.pairwise_cons.mp h).2 (List.pairwise_cons.mp h').2 htail]
      congr 1
      exact Prod.ext hcd (Option.some.inj hv)

end Sys2Proof.Machine
end

