-- ==== Sys2Proof/Laws/State.lean ====
section
/-!
SUPPORT. One lemma per field per update of State, so that no proof unfolds a record update.
-/

namespace Sys2Proof.Machine

@[simp] theorem State.setTu_cfg (x : TemplateU) (s : State) : (s.setTu x).cfg = s.cfg := rfl
@[simp] theorem State.setTu_tu (x : TemplateU) (s : State) : (s.setTu x).tu = x := rfl
@[simp] theorem State.setTu_tr (x : TemplateU) (s : State) : (s.setTu x).tr = s.tr := rfl
@[simp] theorem State.setTu_buf (x : TemplateU) (s : State) : (s.setTu x).buf = s.buf := rfl
@[simp] theorem State.setTu_cmd (x : TemplateU) (s : State) : (s.setTu x).cmd = s.cmd := rfl
@[simp] theorem State.setTu_rsp (x : TemplateU) (s : State) : (s.setTu x).rsp = s.rsp := rfl
@[simp] theorem State.setTu_draws (x : TemplateU) (s : State) : (s.setTu x).draws = s.draws := rfl

@[simp] theorem State.setTr_cfg (x : TemplateR) (s : State) : (s.setTr x).cfg = s.cfg := rfl
@[simp] theorem State.setTr_tu (x : TemplateR) (s : State) : (s.setTr x).tu = s.tu := rfl
@[simp] theorem State.setTr_tr (x : TemplateR) (s : State) : (s.setTr x).tr = x := rfl
@[simp] theorem State.setTr_buf (x : TemplateR) (s : State) : (s.setTr x).buf = s.buf := rfl
@[simp] theorem State.setTr_cmd (x : TemplateR) (s : State) : (s.setTr x).cmd = s.cmd := rfl
@[simp] theorem State.setTr_rsp (x : TemplateR) (s : State) : (s.setTr x).rsp = s.rsp := rfl
@[simp] theorem State.setTr_draws (x : TemplateR) (s : State) : (s.setTr x).draws = s.draws := rfl

@[simp] theorem State.setBuf_cfg (x : Memory) (s : State) : (s.setBuf x).cfg = s.cfg := rfl
@[simp] theorem State.setBuf_tu (x : Memory) (s : State) : (s.setBuf x).tu = s.tu := rfl
@[simp] theorem State.setBuf_tr (x : Memory) (s : State) : (s.setBuf x).tr = s.tr := rfl
@[simp] theorem State.setBuf_buf (x : Memory) (s : State) : (s.setBuf x).buf = x := rfl
@[simp] theorem State.setBuf_cmd (x : Memory) (s : State) : (s.setBuf x).cmd = s.cmd := rfl
@[simp] theorem State.setBuf_rsp (x : Memory) (s : State) : (s.setBuf x).rsp = s.rsp := rfl
@[simp] theorem State.setBuf_draws (x : Memory) (s : State) : (s.setBuf x).draws = s.draws := rfl

@[simp] theorem State.setCmd_cfg (x : List Input) (s : State) : (s.setCmd x).cfg = s.cfg := rfl
@[simp] theorem State.setCmd_tu (x : List Input) (s : State) : (s.setCmd x).tu = s.tu := rfl
@[simp] theorem State.setCmd_tr (x : List Input) (s : State) : (s.setCmd x).tr = s.tr := rfl
@[simp] theorem State.setCmd_buf (x : List Input) (s : State) : (s.setCmd x).buf = s.buf := rfl
@[simp] theorem State.setCmd_cmd (x : List Input) (s : State) : (s.setCmd x).cmd = x := rfl
@[simp] theorem State.setCmd_rsp (x : List Input) (s : State) : (s.setCmd x).rsp = s.rsp := rfl
@[simp] theorem State.setCmd_draws (x : List Input) (s : State) : (s.setCmd x).draws = s.draws := rfl

@[simp] theorem State.send_cfg (x : Packet) (s : State) : (s.send x).cfg = s.cfg := rfl
@[simp] theorem State.send_tu (x : Packet) (s : State) : (s.send x).tu = s.tu := rfl
@[simp] theorem State.send_tr (x : Packet) (s : State) : (s.send x).tr = s.tr := rfl
@[simp] theorem State.send_buf (x : Packet) (s : State) : (s.send x).buf = s.buf := rfl
@[simp] theorem State.send_cmd (x : Packet) (s : State) : (s.send x).cmd = s.cmd := rfl
@[simp] theorem State.send_rsp (x : Packet) (s : State) : (s.send x).rsp = s.rsp ++ [x] := rfl
@[simp] theorem State.send_draws (x : Packet) (s : State) : (s.send x).draws = s.draws := rfl

@[simp] theorem State.countDraw_cfg (s : State) : (s.countDraw).cfg = s.cfg := rfl
@[simp] theorem State.countDraw_tu (s : State) : (s.countDraw).tu = s.tu := rfl
@[simp] theorem State.countDraw_tr (s : State) : (s.countDraw).tr = s.tr := rfl
@[simp] theorem State.countDraw_buf (s : State) : (s.countDraw).buf = s.buf := rfl
@[simp] theorem State.countDraw_cmd (s : State) : (s.countDraw).cmd = s.cmd := rfl
@[simp] theorem State.countDraw_rsp (s : State) : (s.countDraw).rsp = s.rsp := rfl
@[simp] theorem State.countDraw_draws (s : State) : (s.countDraw).draws = s.draws + 1 := rfl

@[simp] theorem State.respond_cfg (x : List Byte) (s : State) : (s.respond x).cfg = s.cfg := rfl
@[simp] theorem State.respond_tu (x : List Byte) (s : State) : (s.respond x).tu = s.tu := rfl
@[simp] theorem State.respond_tr (x : List Byte) (s : State) : (s.respond x).tr = s.tr := rfl
@[simp] theorem State.respond_buf (x : List Byte) (s : State) : (s.respond x).buf = s.buf := rfl
@[simp] theorem State.respond_cmd (x : List Byte) (s : State) : (s.respond x).cmd = s.cmd := rfl
@[simp] theorem State.respond_rsp (x : List Byte) (s : State) : (s.respond x).rsp = s.rsp ++ [0x00 :: x] := rfl
@[simp] theorem State.respond_draws (x : List Byte) (s : State) : (s.respond x).draws = s.draws := rfl

@[simp] theorem State.raiseIllegal_cfg (s : State) : (s.raiseIllegal).cfg = s.cfg := rfl
@[simp] theorem State.raiseIllegal_tu (s : State) : (s.raiseIllegal).tu = s.tu := rfl
@[simp] theorem State.raiseIllegal_tr (s : State) : (s.raiseIllegal).tr = s.tr := rfl
@[simp] theorem State.raiseIllegal_buf (s : State) : (s.raiseIllegal).buf = s.buf := rfl
@[simp] theorem State.raiseIllegal_cmd (s : State) : (s.raiseIllegal).cmd = s.cmd := rfl
@[simp] theorem State.raiseIllegal_rsp (s : State) : (s.raiseIllegal).rsp = s.rsp ++ [[0x01]] := rfl
@[simp] theorem State.raiseIllegal_draws (s : State) : (s.raiseIllegal).draws = s.draws := rfl

@[simp] theorem State.resetBlock_cfg (s : State) : s.resetBlock.cfg = s.cfg := by simp [State.resetBlock]
@[simp] theorem State.resetBlock_tu (s : State) : s.resetBlock.tu = defaultU s.cfg := by simp [State.resetBlock]
@[simp] theorem State.resetBlock_tr (s : State) : s.resetBlock.tr = defaultR s.cfg := by simp [State.resetBlock]
@[simp] theorem State.resetBlock_buf (s : State) : s.resetBlock.buf = s.buf := by simp [State.resetBlock]
@[simp] theorem State.resetBlock_cmd (s : State) : s.resetBlock.cmd = s.cmd := by simp [State.resetBlock]
@[simp] theorem State.resetBlock_rsp (s : State) : s.resetBlock.rsp = s.rsp := by simp [State.resetBlock]
@[simp] theorem State.resetBlock_draws (s : State) : s.resetBlock.draws = s.draws := by simp [State.resetBlock]

@[simp] theorem State.resetOf_cfg (c : Config) : (State.resetOf c).cfg = c := rfl
@[simp] theorem State.resetOf_tu (c : Config) : (State.resetOf c).tu = defaultU c := rfl
@[simp] theorem State.resetOf_tr (c : Config) : (State.resetOf c).tr = defaultR c := rfl
@[simp] theorem State.resetOf_buf (c : Config) : (State.resetOf c).buf = [] := rfl
@[simp] theorem State.resetOf_cmd (c : Config) : (State.resetOf c).cmd = [] := rfl
@[simp] theorem State.resetOf_rsp (c : Config) : (State.resetOf c).rsp = [] := rfl
@[simp] theorem State.resetOf_draws (c : Config) : (State.resetOf c).draws = 0 := rfl

/-- Two states that agree on every field are equal. -/
theorem State.ext_fields {s t : State} (hc : t.cfg = s.cfg) (hu : t.tu = s.tu) (hr : t.tr = s.tr)
    (hb : t.buf = s.buf) (hq : t.cmd = s.cmd) (hp : t.rsp = s.rsp) (hd : t.draws = s.draws) : t = s := by
  cases s
  cases t
  simp_all

end Sys2Proof.Machine
end

