-- ==== Sys2Proof/Laws/Ops.lean ====
section
/-!
SUPPORT. What the shared operations can do: the admission of writes and the stamp.
-/

namespace Sys2Proof.Machine

/-- Writes that answer a next state were all backed by storage. -/
theorem ifAdmitted_next {ws : List BufWrite} {s t u : State} (h : ifAdmitted ws s t = .next u) :
    u = t ∧ ∀ w ∈ ws, bufAdmits s.cfg w.1 = true := by
  unfold ifAdmitted at h
  split at h
  · rename_i hall
    cases h
    exact ⟨rfl, List.all_eq_true.mp hall⟩
  · split at h <;> cases h

theorem ifAdmitted_of_admits {ws : List BufWrite} {s : State} (t : State)
    (h : ∀ w ∈ ws, bufAdmits s.cfg w.1 = true) : ifAdmitted ws s t = .next t := by
  rw [ifAdmitted, if_pos (List.all_eq_true.mpr h)]

@[simp] theorem ifAdmitted_nil (s t : State) : ifAdmitted [] s t = .next t := rfl

/-- Writes that are not all backed stop the machine, by one of two names. -/
theorem ifAdmitted_stops {ws : List BufWrite} {s : State} (t : State)
    (h : ∃ w ∈ ws, bufAdmits s.cfg w.1 = false) :
    ifAdmitted ws s t = .fault .unbackedBuf ∨ ifAdmitted ws s t = .refused .deviceWrite := by
  obtain ⟨w, hw, hf⟩ := h
  have : ¬ (ws.all fun w => bufAdmits s.cfg w.1) = true := fun hall => by
    rw [List.all_eq_true.mp hall w hw] at hf
    cases hf
  unfold ifAdmitted
  rw [if_neg this]
  split
  · exact .inr rfl
  · exact .inl rfl

@[simp] theorem length_imageWrites (dest : Addr) (image : List Byte) :
    (imageWrites dest image).length = image.length := by
  simp [imageWrites]

theorem mem_imageWrites {dest : Addr} {image : List Byte} {w : BufWrite} :
    w ∈ imageWrites dest image ↔
      ∃ (k : Nat) (hk : k < image.length), w = (dest + BitVec.ofNat 32 k, image[k]) := by
  simp only [imageWrites, List.mem_mapIdx, eq_comm]

/-- The addresses of a stamp are distinct: no address is written twice (R36). -/
theorem imageWrites_distinct (dest : Addr) {image : List Byte} (h : image.length ≤ 2 ^ 32) :
    (imageWrites dest image).Pairwise fun x y => x.1 ≠ y.1 := by
  rw [List.pairwise_iff_getElem]
  intro i j hi hj hij
  simp only [length_imageWrites] at hi hj
  simp only [imageWrites, List.getElem_mapIdx, ne_eq]
  intro he
  have := congrArg BitVec.toNat (add_left_cancel he)
  simp only [BitVec.toNat_ofNat] at this
  omega

/-- What a stamp that answers a next state has done. -/
theorem stamp_next {dest : Addr} {image : List Byte} {s t : State} (h : stamp dest image s = .next t) :
    t = (s.setBuf (Memory.writeAll s.buf (imageWrites dest image))).respond [] ∧
      ∀ k < image.length, bufAdmits s.cfg (dest + BitVec.ofNat 32 k) = true := by
  obtain ⟨ht, ha⟩ := ifAdmitted_next h
  exact ⟨ht, fun k hk => ha _ (mem_imageWrites.mpr ⟨k, hk, rfl⟩)⟩

/-- The fields after a stamp, one by one. -/
theorem stamp_next_fields {dest : Addr} {image : List Byte} {s t : State} (h : stamp dest image s = .next t) :
    t.cfg = s.cfg ∧ t.tu = s.tu ∧ t.tr = s.tr ∧ t.buf = Memory.writeAll s.buf (imageWrites dest image) ∧
      t.cmd = s.cmd ∧ t.rsp = s.rsp ++ [[0x00]] ∧ t.draws = s.draws := by
  rw [(stamp_next h).1]
  simp

/-- A stamp into storage answers a next state. -/
theorem stamp_of_admits {dest : Addr} {image : List Byte} {s : State}
    (h : ∀ k < image.length, bufAdmits s.cfg (dest + BitVec.ofNat 32 k) = true) :
    stamp dest image s = .next ((s.setBuf (Memory.writeAll s.buf (imageWrites dest image))).respond []) := by
  refine ifAdmitted_of_admits _ fun w hw => ?_
  obtain ⟨k, hk, rfl⟩ := mem_imageWrites.mp hw
  exact h k hk

/-- After a stamp, byte `k` of the image stands at `(dest + k) mod 2^32`. -/
theorem read_imageWrites (m : Memory) (dest : Addr) {image : List Byte} (h : image.length ≤ 2 ^ 32) (k : Nat)
    (hk : k < image.length) :
    Memory.read (Memory.writeAll m (imageWrites dest image)) (dest + BitVec.ofNat 32 k).toNat = some image[k] :=
  Memory.read_writeAll_mem m (imageWrites_distinct dest h) (mem_imageWrites.mpr ⟨k, hk, rfl⟩)

/-- After a stamp, every address outside the image keeps its byte. -/
theorem read_imageWrites_other (m : Memory) (dest : Addr) (image : List Byte) {a : Addr}
    (h : ∀ k < image.length, a ≠ dest + BitVec.ofNat 32 k) :
    Memory.read (Memory.writeAll m (imageWrites dest image)) a.toNat = Memory.read m a.toNat := by
  refine Memory.read_writeAll_other m fun w hw => ?_
  obtain ⟨k, hk, rfl⟩ := mem_imageWrites.mp hw
  exact (h k hk).symm

/-- Every set of backed addresses is some map of `BUF`: `bufMap` loses no generality against the parameter
`buf_admits` of R5 (assumption 2). -/
theorem bufMap_represents_every_admission (c : Config) (admits : Addr → Bool) :
    ∃ m : List Region, ∀ a, bufAdmits { c with bufMap := m } a = admits a := by
  obtain ⟨all, hall⟩ : ∃ l : List Addr, ∀ a, a ∈ l := ⟨Finset.univ.toList, by simp⟩
  refine ⟨(all.filter admits).map fun k => ⟨k.toNat, 1, .storage⟩, fun a => ?_⟩
  rw [Bool.eq_iff_iff]
  simp only [bufAdmits, bufKind, beq_iff_eq, Option.map_eq_some_iff]
  constructor
  · rintro ⟨r, hr, -⟩
    obtain ⟨k, hk, rfl⟩ := List.mem_map.mp (List.mem_of_find?_eq_some hr)
    have hin := List.find?_some hr
    simp only [regionHolds, Bool.and_eq_true, decide_eq_true_eq] at hin
    have : k = a := BitVec.eq_of_toNat_eq (by omega)
    exact this ▸ (List.mem_filter.mp hk).2
  · intro ha
    have hmem : (⟨a.toNat, 1, .storage⟩ : Region) ∈ (all.filter admits).map fun k => (⟨k.toNat, 1, .storage⟩ : Region) :=
      List.mem_map.mpr ⟨a, List.mem_filter.mpr ⟨hall a, ha⟩, rfl⟩
    obtain ⟨r, hr⟩ := Option.isSome_iff_exists.mp
      (List.find?_isSome (p := fun r => regionHolds r a).mpr ⟨_, hmem, by simp [regionHolds]⟩)
    obtain ⟨k, -, rfl⟩ := List.mem_map.mp (List.mem_of_find?_eq_some hr)
    exact ⟨_, hr, rfl⟩

end Sys2Proof.Machine
end

