-- ==== Sys2Proof/Laws/Exec.lean ====
section
/-!
SUPPORT. What each command answers, as one equation per command over the shared operations, and what taking an
input can do.
-/

namespace Sys2Proof.Machine

theorem exec_cksum (h : IpHeader) (s : State) :
    exec (.cksum h) s = .next (s.respond (be16 (cksum20 h)).toList) := rfl

theorem exec_hton16 (v : BitVec 16) (s : State) :
    exec (.hton16 v) s = .next (s.respond (be16 (hton16 s.cfg v)).toList) := rfl

theorem exec_hton32 (v : BitVec 32) (s : State) :
    exec (.hton32 v) s = .next (s.respond (be32 (hton32 s.cfg v)).toList) := rfl

theorem exec_hton64 (v : BitVec 64) (s : State) :
    exec (.hton64 v) s = .next (s.respond (be64 (hton64 s.cfg v)).toList) := rfl

theorem exec_ntoh16 (v : BitVec 16) (s : State) :
    exec (.ntoh16 v) s = .next (s.respond (be16 (ntoh16 s.cfg v)).toList) := rfl

theorem exec_ntoh32 (v : BitVec 32) (s : State) :
    exec (.ntoh32 v) s = .next (s.respond (be32 (ntoh32 s.cfg v)).toList) := rfl

theorem exec_ntoh64 (v : BitVec 64) (s : State) :
    exec (.ntoh64 v) s = .next (s.respond (be64 (ntoh64 s.cfg v)).toList) := rfl

theorem exec_ucons (s : State) : exec .ucons s = .next ((s.setTu (defaultU s.cfg)).respond []) := rfl

theorem exec_usmac (src dst : MacAddr) (s : State) :
    exec (.usmac src dst) s = .next ((s.setTu (patch (patch s.tu 6 src) 0 dst)).respond []) := rfl

theorem exec_usmacb (src : MacAddr) (s : State) :
    exec (.usmacb src) s = .next ((s.setTu (patch (patch s.tu 6 src) 0 broadcastMac)).respond []) := rfl

theorem exec_usip (src dst : IpAddr) (s : State) :
    exec (.usip src dst) s = .next ((s.setTu (patch (patch s.tu 26 src) 30 dst)).respond []) := rfl

theorem exec_usport (sport dport : BitVec 16) (s : State) : exec (.usport sport dport) s =
    .next ((s.setTu (patch (patch s.tu 34 (be16 sport)) 36 (be16 dport))).respond []) := rfl

theorem exec_uwrhdr (dest : Addr) (plen : BitVec 16) (s : State) :
    exec (.uwrhdr dest plen) s = stamp dest (imageU s.tu plen).toList s := rfl

theorem exec_rcons (s : State) : exec .rcons s = .next ((s.setTr (defaultR s.cfg)).respond []) := rfl

theorem exec_rsmac (src dst : MacAddr) (s : State) :
    exec (.rsmac src dst) s = .next ((s.setTr (patch (patch s.tr 6 src) 0 dst)).respond []) := rfl

theorem exec_rsmacb (src : MacAddr) (s : State) :
    exec (.rsmacb src) s = .next ((s.setTr (patch (patch s.tr 6 src) 0 broadcastMac)).respond []) := rfl

theorem exec_rsip (src dst : IpAddr) (s : State) :
    exec (.rsip src dst) s = .next ((s.setTr (patch (patch s.tr 26 src) 30 dst)).respond []) := rfl

theorem exec_rsport (sport : BitVec 16) (s : State) : exec (.rsport sport) s =
    .next ((s.setTr (patch (patch s.tr 34 (be16 sport)) 36 (be16 s.cfg.rdmxDstPort))).respond []) := rfl

theorem exec_rwrhdr (dest : Addr) (plen : BitVec 16) (target : BitVec 64) (s : State) :
    exec (.rwrhdr dest plen target) s = stamp dest (imageR s.tr plen target).toList s := rfl

theorem step_idle {s : State} (h : s.cmd = []) : step s = .next s := by
  simp [step, h]

theorem step_input {s : State} {e : Input} {rest : List Input} (h : s.cmd = e :: rest) :
    step s = takeInput e (s.setCmd rest) := by
  simp [step, h]

theorem runPacket_ok {p : Packet} {i : Instr} (h : decode p = .ok i) (s : State) : runPacket p s = exec i s := by
  rw [runPacket, h]

theorem runPacket_error {p : Packet} (h : ∀ i, decode p ≠ .ok i) (s : State) :
    runPacket p s = .next s.raiseIllegal := by
  unfold runPacket
  split
  · rename_i i hi
    exact absurd hi (h i)
  · rfl

theorem takeInput_packet (p : Packet) (s : State) : takeInput (.packet p) s = runPacket p s := rfl

theorem takeInput_packetRacing (p : Packet) (agents : List BufWrite) (s : State) :
    takeInput (.packetRacing p agents) s = runRacing p agents s := rfl

theorem takeInput_packetReset (p : Packet) (agents : List BufWrite) (s : State) :
    takeInput (.packetReset p agents) s = runAbandoned p agents s := rfl

theorem takeInput_reset (s : State) : takeInput .reset s = .next s.resetBlock := rfl

theorem takeInput_agentWrite (w : BufWrite) (s : State) : takeInput (.agentWrite w) s = agentWrites [w] s := rfl

/-- What a step that answers a next state has done. -/
theorem step_cases {s t : State} (h : step s = .next t) :
    (s.cmd = [] ∧ t = s) ∨ ∃ e rest, s.cmd = e :: rest ∧ takeInput e (s.setCmd rest) = .next t := by
  cases hc : s.cmd with
  | nil => exact .inl ⟨rfl, by rw [step_idle hc] at h; cases h; rfl⟩
  | cons e rest => exact .inr ⟨e, rest, rfl, by rwa [step_input hc] at h⟩

/-- What a packet that answers a next state has done. -/
theorem runPacket_cases {p : Packet} {s t : State} (h : runPacket p s = .next t) :
    (∃ i, decode p = .ok i ∧ exec i s = .next t) ∨ ((∀ i, decode p ≠ .ok i) ∧ t = s.raiseIllegal) := by
  by_cases hp : ∃ i, decode p = .ok i
  · obtain ⟨i, hi⟩ := hp
    exact .inl ⟨i, hi, by rwa [runPacket_ok hi] at h⟩
  · have hp := not_exists.mp hp
    rw [runPacket_error hp] at h
    cases h
    exact .inr ⟨hp, rfl⟩

/-- What writes of other agents that answer a next state have done. -/
theorem agentWrites_next {ws : List BufWrite} {s t : State} (h : agentWrites ws s = .next t) :
    t = s.setBuf (Memory.writeAll s.buf ws) ∧ ∀ w ∈ ws, bufAdmits s.cfg w.1 = true := ifAdmitted_next h

/-- What a packet with racing writes that answers a next state has done. -/
theorem runRacing_next {p : Packet} {agents : List BufWrite} {s t : State} (h : runRacing p agents s = .next t) :
    ∃ u, runPacket p s = .next u ∧
      t = (u.setBuf (Memory.writeAll u.buf (agentsThatStay s.draws (packetWrites p s) agents))).countDraw := by
  unfold runRacing at h
  split at h
  · rename_i u hu
    exact ⟨u, hu, (agentWrites_next h).1⟩
  · cases h
  · cases h

/-- What a packet that `RESET` abandons leaves. -/
theorem runAbandoned_next {p : Packet} {agents : List BufWrite} {s t : State} (h : runAbandoned p agents s = .next t) :
    t = (s.resetBlock.setBuf (Memory.writeAll s.buf (reachedWrites s.draws (packetWrites p s) ++
      agentsThatStay s.draws (reachedWrites s.draws (packetWrites p s)) agents))).countDraw :=
  (ifAdmitted_next h).1

end Sys2Proof.Machine
end

