-- ==== Sys2Proof/Laws/PerInstr.lean ====
section
/-!
SUPPORT. Statements about every command as syntax, one lemma per constructor: the packet of a command passes the
three checks of 30_encoding.md R59.
-/

namespace Sys2Proof.Laws.EncodedWellFormed

/-- The packet of `i` is a well-formed one. -/
def Statement (i : Instr) : Prop := packetWellFormed (encode i) = true

theorem of_length {op : Byte} {ops : List Byte} {n : Nat} (h : Machine.opcodeLength op = some n)
    (hn : ops.length + 1 = n) : packetWellFormed (op :: ops) = true := by
  have hrow : (Machine.opcodeRow op).isSome = true := by
    unfold Machine.opcodeLength at h
    cases hr : Machine.opcodeRow op <;> simp_all
  simp [packetWellFormed, packetHasOpcode, packetOpcodeAssigned, packetLengthMatches, hrow, h, hn]

theorem cksum (h : IpHeader) : Statement (.cksum h) := of_length (n := 21) (by decide) (by simp)
theorem hton16 (v : BitVec 16) : Statement (.hton16 v) := of_length (n := 3) (by decide) (by simp)
theorem hton32 (v : BitVec 32) : Statement (.hton32 v) := of_length (n := 5) (by decide) (by simp)
theorem hton64 (v : BitVec 64) : Statement (.hton64 v) := of_length (n := 9) (by decide) (by simp)
theorem ntoh16 (v : BitVec 16) : Statement (.ntoh16 v) := of_length (n := 3) (by decide) (by simp)
theorem ntoh32 (v : BitVec 32) : Statement (.ntoh32 v) := of_length (n := 5) (by decide) (by simp)
theorem ntoh64 (v : BitVec 64) : Statement (.ntoh64 v) := of_length (n := 9) (by decide) (by simp)
theorem ucons : Statement .ucons := of_length (n := 1) (by decide) (by simp)
theorem usmac (src dst : MacAddr) : Statement (.usmac src dst) := of_length (n := 13) (by decide) (by simp)
theorem usmacb (src : MacAddr) : Statement (.usmacb src) := of_length (n := 7) (by decide) (by simp)
theorem usip (src dst : IpAddr) : Statement (.usip src dst) := of_length (n := 9) (by decide) (by simp)
theorem usport (sport dport : BitVec 16) : Statement (.usport sport dport) :=
  of_length (n := 5) (by decide) (by simp)
theorem uwrhdr (dest : Addr) (plen : BitVec 16) : Statement (.uwrhdr dest plen) :=
  of_length (n := 7) (by decide) (by simp)
theorem rcons : Statement .rcons := of_length (n := 1) (by decide) (by simp)
theorem rsmac (src dst : MacAddr) : Statement (.rsmac src dst) := of_length (n := 13) (by decide) (by simp)
theorem rsmacb (src : MacAddr) : Statement (.rsmacb src) := of_length (n := 7) (by decide) (by simp)
theorem rsip (src dst : IpAddr) : Statement (.rsip src dst) := of_length (n := 9) (by decide) (by simp)
theorem rsport (sport : BitVec 16) : Statement (.rsport sport) := of_length (n := 3) (by decide) (by simp)
theorem rwrhdr (dest : Addr) (plen : BitVec 16) (target : BitVec 64) : Statement (.rwrhdr dest plen target) :=
  of_length (n := 15) (by decide) (by simp)

end Sys2Proof.Laws.EncodedWellFormed
end

