-- ==== Sys2Proof/Tests/Slice0.lean ====
section
/-!
SUPPORT. The model's own tests and the witnesses of its statements' hypotheses. Every expected value is a vector
of spec/95_test_vectors.md (its name stands in the docstring) or worked out by hand from a rule.
-/

namespace Sys2Proof.Tests

open Sys2Proof.Machine Sys2Proof.Claims

/-! ## Helpers -/

/-- The state an outcome answers. -/
def answered : Host.Outcome State Fault Refusal → Option State
  | .next t => some t
  | .fault _ => none
  | .refused _ => none

/-- One command from a state: the responses it sends, the templates after it. -/
def rspOf (i : Instr) (s : State) : Option (List Packet) := (answered (exec i s)).map (·.rsp)

def tuOf (i : Instr) (s : State) : Option TemplateU := (answered (exec i s)).map (·.tu)

def trOf (i : Instr) (s : State) : Option TemplateR := (answered (exec i s)).map (·.tr)

/-- The bytes of `BUF` at the addresses `a + k`, `k` in the list, after one command. -/
def bufOf (i : Instr) (s : State) (a : Addr) (ks : List Nat) : Option (List (Option Byte)) :=
  (answered (exec i s)).map fun t => ks.map fun k => readBuf t (a + BitVec.ofNat 32 k)

/-- `CFG1` and `CFG2` of 95_test_vectors.md (`CFG0` is `Config.default`). -/
def cfg1 : Config := { Config.default with ipId := 0xDEAD }
def cfg2 : Config := { Config.default with hostBigEndian := true }

/-- The templates of V-U2 and V-R2, as 95_test_vectors.md prints them. -/
def configuredU : TemplateU :=
  #v[0xFF, 0xFF, 0xFF, 0xFF, 0xFF, 0xFF, 0xC4, 0x00, 0xAD, 0x3A, 0xD3, 0x6B, 0x08, 0x00,
     0x45, 0x00, 0x00, 0x00, 0x00, 0x00, 0x40, 0x00, 0x40, 0x11, 0x00, 0x00,
     0x0A, 0x0B, 0x0C, 0x01, 0x0A, 0x0B, 0x0C, 0xFF,
     0x04, 0xD2, 0x16, 0x2E, 0x00, 0x00, 0x00, 0x00]

def configuredR : TemplateR :=
  #v[0xFF, 0xFF, 0xFF, 0xFF, 0xFF, 0xFF, 0xC4, 0x00, 0xAD, 0x3A, 0xD3, 0x6B, 0x08, 0x00,
     0x45, 0x00, 0x00, 0x00, 0x00, 0x00, 0x40, 0x00, 0x40, 0x11, 0x00, 0x00,
     0x0A, 0x0B, 0x0C, 0x01, 0x0A, 0x0B, 0x0C, 0xFF,
     0x04, 0xD2, 0x27, 0x10, 0x00, 0x00, 0x00, 0x00,
     0x52, 0x44, 0x00, 0x00, 0x00, 0x00, 0x00, 0x00, 0x00, 0x00, 0x00, 0x00, 0x00, 0x00, 0x00, 0x00,
     0x00, 0x00, 0x00, 0x00, 0x00, 0x00]

/-- The block with its templates configured, and one with the next input. -/
def configured : State := (State.reset.setTu configuredU).setTr configuredR
def given (e : Input) : State := State.reset.setCmd [e]

/-! ## Well-formedness: each check refuses an ill-formed packet (V-E1 to V-E7) -/

theorem test_wf_empty_packet : packetHasOpcode [] = false ∧ packetWellFormed [] = false := by decide

theorem test_wf_reserved_opcode :
    packetOpcodeAssigned [0x26] = false ∧ packetOpcodeAssigned [0x13, 0x00, 0x00] = false ∧
    packetOpcodeAssigned [0xFF] = false ∧ packetWellFormed [0x13, 0x00, 0x00] = false := by decide

theorem test_wf_wrong_length :
    packetLengthMatches [0x24, 0x04, 0xD2] = false ∧ packetLengthMatches [0x20, 0x00] = false ∧
    packetLengthMatches (0x00 :: List.replicate 19 0x00) = false ∧
    packetWellFormed [0x24, 0x04, 0xD2] = false := by decide

/-- V-E8, V-E9: the nearest accepted neighbours. -/
theorem test_wf_accepts :
    packetWellFormed [0x34, 0x04, 0xD2] = true ∧
    packetWellFormed [0x25, 0x00, 0x00, 0x10, 0x00, 0x00, 0x00] = true := by decide

/-! ## Decoding: a packet of each command, written out from 30_encoding.md R46 to R56 -/

theorem test_decode_cksum :
    decode [0x00, 0x45, 0x00, 0x00, 0x1C, 0x00, 0x00, 0x40, 0x00, 0x40, 0x11, 0x3A, 0xD2,
      0x00, 0x00, 0x00, 0x00, 0x00, 0x00, 0x00, 0x00] =
    .ok (.cksum #v[0x45, 0x00, 0x00, 0x1C, 0x00, 0x00, 0x40, 0x00, 0x40, 0x11, 0x3A, 0xD2,
      0x00, 0x00, 0x00, 0x00, 0x00, 0x00, 0x00, 0x00]) := by decide

theorem test_decode_hton16 : decode [0x10, 0x12, 0x34] = .ok (.hton16 0x1234) := by decide

theorem test_decode_hton32 : decode [0x11, 0x0A, 0x0B, 0x0C, 0x01] = .ok (.hton32 0x0A0B0C01) := by decide

theorem test_decode_hton64 :
    decode [0x12, 0x12, 0x34, 0x56, 0x78, 0x9A, 0xBC, 0xDE, 0xF0] = .ok (.hton64 0x123456789ABCDEF0) := by decide

theorem test_decode_ntoh16 : decode [0x14, 0x34, 0x12] = .ok (.ntoh16 0x3412) := by decide

theorem test_decode_ntoh32 : decode [0x15, 0x01, 0x0C, 0x0B, 0x0A] = .ok (.ntoh32 0x010C0B0A) := by decide

theorem test_decode_ntoh64 :
    decode [0x16, 0xF0, 0xDE, 0xBC, 0x9A, 0x78, 0x56, 0x34, 0x12] = .ok (.ntoh64 0xF0DEBC9A78563412) := by decide

theorem test_decode_ucons : decode [0x20] = .ok .ucons := by decide

theorem test_decode_usmac :
    decode [0x21, 0xC4, 0x00, 0xAD, 0x3A, 0xD3, 0x6B, 0x01, 0x02, 0x03, 0x04, 0x05, 0x06] =
    .ok (.usmac #v[0xC4, 0x00, 0xAD, 0x3A, 0xD3, 0x6B] #v[0x01, 0x02, 0x03, 0x04, 0x05, 0x06]) := by decide

theorem test_decode_usmacb :
    decode [0x22, 0xC4, 0x00, 0xAD, 0x3A, 0xD3, 0x6B] = .ok (.usmacb #v[0xC4, 0x00, 0xAD, 0x3A, 0xD3, 0x6B]) := by
  decide

theorem test_decode_usip :
    decode [0x23, 0x0A, 0x0B, 0x0C, 0x01, 0x0A, 0x0B, 0x0C, 0xFF] =
    .ok (.usip #v[10, 11, 12, 1] #v[10, 11, 12, 255]) := by decide

theorem test_decode_usport : decode [0x24, 0x04, 0xD2, 0x16, 0x2E] = .ok (.usport 1234 5678) := by decide

theorem test_decode_uwrhdr :
    decode [0x25, 0x00, 0x00, 0x10, 0x00, 0x01, 0x00] = .ok (.uwrhdr 0x1000 256) := by decide

theorem test_decode_rcons : decode [0x30] = .ok .rcons := by decide

theorem test_decode_rsmac :
    decode [0x31, 0xC4, 0x00, 0xAD, 0x3A, 0xD3, 0x6B, 0x01, 0x02, 0x03, 0x04, 0x05, 0x06] =
    .ok (.rsmac #v[0xC4, 0x00, 0xAD, 0x3A, 0xD3, 0x6B] #v[0x01, 0x02, 0x03, 0x04, 0x05, 0x06]) := by decide

theorem test_decode_rsmacb :
    decode [0x32, 0xC4, 0x00, 0xAD, 0x3A, 0xD3, 0x6B] = .ok (.rsmacb #v[0xC4, 0x00, 0xAD, 0x3A, 0xD3, 0x6B]) := by
  decide

theorem test_decode_rsip :
    decode [0x33, 0x0A, 0x0B, 0x0C, 0x01, 0x0A, 0x0B, 0x0C, 0xFF] =
    .ok (.rsip #v[10, 11, 12, 1] #v[10, 11, 12, 255]) := by decide

theorem test_decode_rsport : decode [0x34, 0x04, 0xD2] = .ok (.rsport 1234) := by decide

theorem test_decode_rwrhdr :
    decode [0x35, 0x00, 0x00, 0x20, 0x00, 0x01, 0x00, 0x12, 0x34, 0x56, 0x78, 0x9A, 0xBC, 0xDE, 0xF0] =
    .ok (.rwrhdr 0x2000 256 0x123456789ABCDEF0) := by decide

/-- V-E1, V-E3, V-E4: the three rejections by name. -/
theorem test_decode_rejects :
    decode [0x26] = .error (.unassignedOpcode 0x26) ∧ decode [0x24, 0x04, 0xD2] = .error (.wrongLength 0x24 3) ∧
    decode [] = .error .emptyPacket := by decide

/-- The encoder writes the packets of programs P2 and P4. -/
theorem test_encode :
    encode (.rsport 1234) = [0x34, 0x04, 0xD2] ∧ encode (.usport 49152 53) = [0x24, 0xC0, 0x00, 0x00, 0x35] ∧
    encode (.uwrhdr 0xFFFFFFF0 95) = [0x25, 0xFF, 0xFF, 0xFF, 0xF0, 0x00, 0x5F] := by decide

/-- Table words: the opcode byte is the least significant byte; operand bytes that a row does not give are 0. -/
theorem test_decode_table_word :
    decodeTableWord 40 0x2E16D20424 = some (.usport 1234 5678) ∧ decodeTableWord 8 0x30 = some .rcons ∧
    decodeTableWord 8 0x25 = some (.uwrhdr 0 0) ∧ decodeTableWord 8 0x26 = none := by decide

/-- R60: a hexadecimal number is read digit by digit, a decimal one takes no letter, and a number fits its width. -/
theorem test_read_int :
    readInt 16 "0x04D2".toList = some 1234 ∧ readInt 16 "0x04d2".toList = some 1234 ∧
    readInt 16 "12F4".toList = none ∧ readInt 16 "0x".toList = none ∧ readInt 16 "65535".toList = some 0xFFFF ∧
    readInt 16 "65536".toList = none := by decide

/-- The assembler turns P1's step 2, 3 and 5 into their packets. -/
theorem test_assemble :
    (assemble "USMAC C4:00:AD:3A:D3:6B\nUSIP 10.11.12.1, 10.11.12.255 ; both\n\nUWRHDR 0x00001000, 256".toList).map
      (List.map encode) =
    some [[0x22, 0xC4, 0x00, 0xAD, 0x3A, 0xD3, 0x6B], [0x23, 0x0A, 0x0B, 0x0C, 0x01, 0x0A, 0x0B, 0x0C, 0xFF],
      [0x25, 0x00, 0x00, 0x10, 0x00, 0x01, 0x00]] := by decide

/-! ## One step of each command -/

/-- V-CK5: a header with a carry. -/
theorem test_cksum_carry :
    rspOf (.cksum #v[0x45, 0x00, 0x00, 0x73, 0x00, 0x00, 0x40, 0x00, 0x40, 0x11, 0xB8, 0x61,
      0xC0, 0xA8, 0x00, 0x01, 0xC0, 0xA8, 0x00, 0xC7]) State.reset = some [[0x00, 0xB8, 0x61]] := by decide

/-- V-CK4: the second fold. -/
theorem test_cksum_second_fold :
    rspOf (.cksum #v[0xFF, 0xFF, 0xFF, 0xFF, 0xFF, 0xFF, 0xFF, 0xFF, 0xFF, 0xFF, 0x12, 0x34,
      0xFF, 0xFF, 0xFF, 0xFF, 0xFF, 0xFF, 0x00, 0x07]) State.reset = some [[0x00, 0xFF, 0xF8]] := by decide

/-- V-BO1 under `CFG0` and `CFG2`, and so on. -/
theorem test_hton16 :
    rspOf (.hton16 0x1234) State.reset = some [[0x00, 0x34, 0x12]] ∧
    rspOf (.hton16 0x1234) (State.resetOf cfg2) = some [[0x00, 0x12, 0x34]] := by decide

/-- V-BO9: the width. -/
theorem test_hton32 :
    rspOf (.hton32 0x00001234) State.reset = some [[0x00, 0x34, 0x12, 0x00, 0x00]] ∧
    rspOf (.hton32 0x0A0B0C01) (State.resetOf cfg2) = some [[0x00, 0x0A, 0x0B, 0x0C, 0x01]] := by decide

/-- V-BO11: the halves are exchanged and each reversed. -/
theorem test_hton64 :
    rspOf (.hton64 0x00000001FFFFFFFE) State.reset =
      some [[0x00, 0xFE, 0xFF, 0xFF, 0xFF, 0x01, 0x00, 0x00, 0x00]] ∧
    rspOf (.hton64 0x123456789ABCDEF0) (State.resetOf cfg2) =
      some [[0x00, 0x12, 0x34, 0x56, 0x78, 0x9A, 0xBC, 0xDE, 0xF0]] := by decide

/-- V-BO2. -/
theorem test_ntoh16 :
    rspOf (.ntoh16 0x3412) State.reset = some [[0x00, 0x12, 0x34]] ∧
    rspOf (.ntoh16 0x3412) (State.resetOf cfg2) = some [[0x00, 0x34, 0x12]] := by decide

/-- V-BO4. -/
theorem test_ntoh32 :
    rspOf (.ntoh32 0x010C0B0A) State.reset = some [[0x00, 0x0A, 0x0B, 0x0C, 0x01]] ∧
    rspOf (.ntoh32 0x010C0B0A) (State.resetOf cfg2) = some [[0x00, 0x01, 0x0C, 0x0B, 0x0A]] := by decide

/-- V-BO6. -/
theorem test_ntoh64 :
    rspOf (.ntoh64 0xF0DEBC9A78563412) State.reset =
      some [[0x00, 0x12, 0x34, 0x56, 0x78, 0x9A, 0xBC, 0xDE, 0xF0]] ∧
    rspOf (.ntoh64 0xF0DEBC9A78563412) (State.resetOf cfg2) =
      some [[0x00, 0xF0, 0xDE, 0xBC, 0x9A, 0x78, 0x56, 0x34, 0x12]] := by decide

/-- V-U1 under `CFG1`: the addresses and ports go back to their defaults. -/
theorem test_ucons :
    tuOf .ucons ((State.resetOf cfg1).setTu configuredU) = some
      #v[0xFF, 0xFF, 0xFF, 0xFF, 0xFF, 0xFF, 0x00, 0x00, 0x00, 0x00, 0x00, 0x00, 0x08, 0x00,
         0x45, 0x00, 0x00, 0x00, 0xDE, 0xAD, 0x40, 0x00, 0x40, 0x11, 0x00, 0x00,
         0x00, 0x00, 0x00, 0x00, 0x00, 0x00, 0x00, 0x00,
         0x00, 0x00, 0x00, 0x00, 0x00, 0x00, 0x00, 0x00] := by decide

/-- V-U4: destination first in the template, source first in the packet. -/
theorem test_usmac :
    ((tuOf (.usmac #v[0xC4, 0x00, 0xAD, 0x3A, 0xD3, 0x6B] #v[0x01, 0x02, 0x03, 0x04, 0x05, 0x06])
      State.reset).map fun t => t.toList.take 13) =
    some [0x01, 0x02, 0x03, 0x04, 0x05, 0x06, 0xC4, 0x00, 0xAD, 0x3A, 0xD3, 0x6B, 0x08] := by decide

/-- V-U4: the destination is overwritten. -/
theorem test_usmacb :
    ((tuOf (.usmacb #v[0xC4, 0x00, 0xAD, 0x3A, 0xD3, 0x6B])
      (State.reset.setTu (patch configuredU 0 #v[0x01, 0x02, 0x03, 0x04, 0x05, 0x06]))).map
        fun t => t.toList.take 13) =
    some [0xFF, 0xFF, 0xFF, 0xFF, 0xFF, 0xFF, 0xC4, 0x00, 0xAD, 0x3A, 0xD3, 0x6B, 0x08] := by decide

/-- V-U2. -/
theorem test_usip :
    ((tuOf (.usip #v[10, 11, 12, 1] #v[10, 11, 12, 255]) State.reset).map fun t => (t.toList.drop 24).take 11) =
    some [0x00, 0x00, 0x0A, 0x0B, 0x0C, 0x01, 0x0A, 0x0B, 0x0C, 0xFF, 0x00] := by decide

/-- V-U2. -/
theorem test_usport :
    ((tuOf (.usport 1234 5678) State.reset).map fun t => t.toList.drop 33) =
    some [0x00, 0x04, 0xD2, 0x16, 0x2E, 0x00, 0x00, 0x00, 0x00] := by decide

/-- V-U3: all 42 bytes; the byte after them is not written. -/
theorem test_uwrhdr :
    bufOf (.uwrhdr 0x1000 256) configured 0x1000 (List.range 43) = some (
      ([0xFF, 0xFF, 0xFF, 0xFF, 0xFF, 0xFF, 0xC4, 0x00, 0xAD, 0x3A, 0xD3, 0x6B, 0x08, 0x00].map some) ++
      ([0x45, 0x00, 0x01, 0x1C, 0x00, 0x00, 0x40, 0x00, 0x40, 0x11, 0x0C, 0xBC,
        0x0A, 0x0B, 0x0C, 0x01, 0x0A, 0x0B, 0x0C, 0xFF].map some) ++
      ([0x04, 0xD2, 0x16, 0x2E, 0x01, 0x08, 0x00, 0x00].map some) ++ [none]) := by decide

/-- V-U5, V-U9: both lengths wrap, and so does the address: bytes 15 to 17 and 24, 25, 38, 39 of the image. -/
theorem test_uwrhdr_wraps :
    bufOf (.uwrhdr 0xFFFFFFF0 65528) configured 0 [0, 1, 8, 9, 22, 23] =
      some [some 0x00, some 0x14, some 0x0D, some 0xC4, some 0x00, some 0x00] ∧
    bufOf (.uwrhdr 0xFFFFFFF0 65528) configured 0xFFFFFFFF [0] = some [some 0x00] := by decide

/-- V-R1 in a block whose `IP_ID` is 0xDEAD. -/
theorem test_rcons :
    trOf .rcons ((State.resetOf cfg1).setTr configuredR) = some
      #v[0xFF, 0xFF, 0xFF, 0xFF, 0xFF, 0xFF, 0x00, 0x00, 0x00, 0x00, 0x00, 0x00, 0x08, 0x00,
         0x45, 0x00, 0x00, 0x00, 0xDE, 0xAD, 0x40, 0x00, 0x40, 0x11, 0x00, 0x00,
         0x00, 0x00, 0x00, 0x00, 0x00, 0x00, 0x00, 0x00,
         0x00, 0x00, 0x27, 0x10, 0x00, 0x00, 0x00, 0x00,
         0x52, 0x44, 0x00, 0x00, 0x00, 0x00, 0x00, 0x00, 0x00, 0x00, 0x00, 0x00, 0x00, 0x00, 0x00, 0x00,
         0x00, 0x00, 0x00, 0x00, 0x00, 0x00] := by decide

/-- R94. -/
theorem test_rsmac :
    ((trOf (.rsmac #v[0xC4, 0x00, 0xAD, 0x3A, 0xD3, 0x6B] #v[0x01, 0x02, 0x03, 0x04, 0x05, 0x06])
      State.reset).map fun t => t.toList.take 13) =
    some [0x01, 0x02, 0x03, 0x04, 0x05, 0x06, 0xC4, 0x00, 0xAD, 0x3A, 0xD3, 0x6B, 0x08] := by decide

/-- V-R2, from a template with another destination. -/
theorem test_rsmacb :
    ((trOf (.rsmacb #v[0xC4, 0x00, 0xAD, 0x3A, 0xD3, 0x6B])
      (State.reset.setTr (patch configuredR 0 #v[0x01, 0x02, 0x03, 0x04, 0x05, 0x06]))).map
        fun t => t.toList.take 13) =
    some [0xFF, 0xFF, 0xFF, 0xFF, 0xFF, 0xFF, 0xC4, 0x00, 0xAD, 0x3A, 0xD3, 0x6B, 0x08] := by decide

/-- V-R2. -/
theorem test_rsip :
    ((trOf (.rsip #v[10, 11, 12, 1] #v[10, 11, 12, 255]) State.reset).map fun t => (t.toList.drop 24).take 11) =
    some [0x00, 0x00, 0x0A, 0x0B, 0x0C, 0x01, 0x0A, 0x0B, 0x0C, 0xFF, 0x00] := by decide

/-- V-E8. -/
theorem test_rsport :
    ((trOf (.rsport 1234) State.reset).map fun t => (t.toList.drop 33).take 7) =
    some [0x00, 0x04, 0xD2, 0x27, 0x10, 0x00, 0x00] := by decide

/-- V-R2: all 64 bytes; the byte after them is not written. -/
theorem test_rwrhdr :
    bufOf (.rwrhdr 0x2000 256 0x123456789ABCDEF0) configured 0x2000 (List.range 65) = some (
      ([0xFF, 0xFF, 0xFF, 0xFF, 0xFF, 0xFF, 0xC4, 0x00, 0xAD, 0x3A, 0xD3, 0x6B, 0x08, 0x00].map some) ++
      ([0x45, 0x00, 0x01, 0x32, 0x00, 0x00, 0x40, 0x00, 0x40, 0x11, 0x0C, 0xA6,
        0x0A, 0x0B, 0x0C, 0x01, 0x0A, 0x0B, 0x0C, 0xFF].map some) ++
      ([0x04, 0xD2, 0x27, 0x10, 0x01, 0x1E, 0x00, 0x00].map some) ++
      ([0x52, 0x44, 0x12, 0x34, 0x56, 0x78, 0x9A, 0xBC, 0xDE, 0xF0, 0x00, 0x00, 0x00, 0x00, 0x00, 0x00,
        0x00, 0x00, 0x00, 0x00, 0x00, 0x00].map some) ++ [none]) := by decide

/-- V-R3, row 65507: the source's upper bound, wrapped for RDMX. -/
theorem test_rwrhdr_wraps :
    bufOf (.rwrhdr 0 65507 0xFFFFFFFFFFFFFFFF) configured 0 [16, 17, 24, 25, 38, 39, 44, 51] =
    some [some 0x00, some 0x15, some 0x0D, some 0xC3, some 0x00, some 0x01, some 0xFF, some 0xFF] := by decide

/-- V-E4, V-E5: an illegal packet is answered `01`; the word of a table row is the very next command. -/
theorem test_step :
    ((answered (step (given (.packet [])))).map (·.rsp)) = some [[0x01]] ∧
    ((answered (step (given (.packet [0x20, 0x00])))).map (·.rsp)) = some [[0x01]] ∧
    ((answered (step (State.reset.withFetchWord 24 0x341210))).map (·.rsp)) = some [[0x00, 0x34, 0x12]] := by decide

/-- R22: the reset image of `TU` (V-U1) and of `TR`'s destination port and magic (V-R1). -/
theorem test_reset :
    State.reset.tu.toList = udpDefaults Config.default ∧
    (State.reset.tr.toList.drop 36).take 8 = [0x27, 0x10, 0x00, 0x00, 0x00, 0x00, 0x52, 0x44] := by decide

/-- R38, R36: a stamp over the end of storage stops, and one into a device is refused. -/
theorem test_unbacked :
    (match exec (.uwrhdr 0x10 0) (State.resetOf { Config.default with bufMap := [⟨0, 0x39, .storage⟩] }) with
      | .fault .unbackedBuf => true | _ => false) = true ∧
    (match exec (.uwrhdr 0x10 0) (State.resetOf { Config.default with bufMap := [⟨0x39, 1, .device⟩] }) with
      | .refused .deviceWrite => true | _ => false) = true := by decide

/-! ## Witnesses: for each statement with hypotheses, a state and operands that meet all of them together -/

/-- All of `BUF` is storage in the default configuration. -/
theorem default_admits (a : Addr) : bufAdmits Config.default a = true := by
  have := a.isLt
  simp [bufAdmits, bufKind, Config.default, regionHolds]
  omega

/-- R86's premise, at an address whose range wraps. -/
theorem witness_UwrhdrStampsImage : Backed State.reset.cfg 0xFFFFFFF0 42 := fun _ _ => default_admits _

theorem witness_RwrhdrStampsImage : Backed State.reset.cfg 0xFFFFFFFF 64 := fun _ _ => default_admits _

/-- The stamps run wherever all of `BUF` is storage. -/
theorem uwrhdr_runs (d : Addr) (plen : BitVec 16) (s : State) (h : s.cfg = Config.default) :
    ∃ t, exec (.uwrhdr d plen) s = .next t ∧ t.cfg = Config.default ∧ t.tu = s.tu ∧ t.tr = s.tr := by
  have hs := (exec_uwrhdr d plen s).trans (stamp_of_admits fun _ _ => by rw [h]; exact default_admits _)
  have hf := stamp_next_fields ((exec_uwrhdr d plen s).symm.trans hs)
  exact ⟨_, hs, hf.1.trans h, hf.2.1, hf.2.2.1⟩

theorem rwrhdr_runs (d : Addr) (plen : BitVec 16) (x : BitVec 64) (s : State) (h : s.cfg = Config.default) :
    ∃ t, exec (.rwrhdr d plen x) s = .next t ∧ t.cfg = Config.default ∧ t.tu = s.tu ∧ t.tr = s.tr := by
  have hs := (exec_rwrhdr d plen x s).trans (stamp_of_admits fun _ _ => by rw [h]; exact default_admits _)
  have hf := stamp_next_fields ((exec_rwrhdr d plen x s).symm.trans hs)
  exact ⟨_, hs, hf.1.trans h, hf.2.1, hf.2.2.1⟩

/-- What is no command, for each reason of R59. -/
theorem witness_not_command :
    ¬ IsCommand [] ∧ ¬ IsCommand [0x26] ∧ ¬ IsCommand [0x24, 0x04, 0xD2] ∧ ¬ IsCommand [0x20, 0x00] := by
  refine ⟨?_, ?_, ?_, ?_⟩ <;> rintro ⟨op, rest, n, h, hm, hl⟩
  · cases h
  · cases h; revert hm hl; simp [assigned]
  · cases h; subst hl; revert hm; simp [assigned]
  · cases h; subst hl; revert hm; simp [assigned]

theorem witness_PacketIsCommandExactlyWhenAssigned :
    IsCommand [0x20] ∧ decode [0x20] = .ok .ucons ∧ (given (.packet [0x26])).cmd = .packet [0x26] :: [] ∧
    ¬ IsCommand [0x26] ∧ (∀ n, ((0x26 : Byte), n) ∉ assigned) ∧ ((0x20 : Byte), 1) ∈ assigned :=
  ⟨⟨0x20, [], 1, rfl, by decide, rfl⟩, rfl, rfl, witness_not_command.2.1, by simp [assigned], by decide⟩

theorem witness_EncodeOfDecode : decode [0x30] = .ok .rcons ∧ encode .rcons = [0x30] := ⟨rfl, rfl⟩

theorem witness_OneResponsePerPacket :
    (∃ t, step (given (.packet [0x30])) = .next t) ∧ decode [0x30] = .ok .rcons ∧
    (∃ t, step (given (.packet [0x24, 0x04, 0xD2])) = .next t) ∧ ¬ IsCommand [0x24, 0x04, 0xD2] :=
  ⟨⟨_, rfl⟩, rfl, ⟨_, rfl⟩, witness_not_command.2.2.1⟩

theorem witness_StepRunsDecodedCommand :
    (given (.packet [0x34, 0x04, 0xD2])).cmd = .packet [0x34, 0x04, 0xD2] :: [] ∧
    decode [0x34, 0x04, 0xD2] = .ok (.rsport 1234) := ⟨rfl, by decide⟩

theorem witness_IdleKeepsEverything : Quiescent State.reset := rfl

theorem witness_IllegalPacketHasNoEffect :
    (given (.packet [])).cmd = .packet [] :: [] ∧ ¬ IsCommand [] ∧ (∃ t, exec .ucons State.reset = .next t) :=
  ⟨rfl, witness_not_command.1, ⟨_, rfl⟩⟩

theorem witness_ResponsesAreNotState : ∃ t, step (given (.packet [0x26])) = .next t := ⟨_, rfl⟩

theorem witness_ResetLoadsBothTemplates :
    ((configured.setCmd [.reset]).cmd = .reset :: []) ∧
    ∃ t u, exec .ucons configured = .next t ∧ exec .rcons t = .next u := ⟨rfl, _, _, rfl, rfl⟩

/-- An abandoned stamp whose address range wraps; storage backs all of it. -/
theorem witness_ResetAbandonsCommand :
    (given (.packetReset [0x25, 0xFF, 0xFF, 0xFF, 0xF0, 0x00, 0x5F] [])).cmd =
      .packetReset [0x25, 0xFF, 0xFF, 0xFF, 0xF0, 0x00, 0x5F] [] :: [] ∧
    ∀ w ∈ packetWrites [0x25, 0xFF, 0xFF, 0xFF, 0xF0, 0x00, 0x5F] State.reset,
      bufAdmits State.reset.cfg w.1 = true := ⟨rfl, fun _ _ => default_admits _⟩

/-- A racing write into the stamp, at its last byte, and one just past it. -/
theorem witness_RacingWriteIsEither :
    (∃ u, runPacket [0x25, 0x00, 0x00, 0x10, 0x00, 0x00, 0x00] State.reset = .next u) ∧
    (∃ w ∈ packetWrites [0x25, 0x00, 0x00, 0x10, 0x00, 0x00, 0x00] State.reset, w.1 = 0x1029) ∧
    (∀ w ∈ packetWrites [0x25, 0x00, 0x00, 0x10, 0x00, 0x00, 0x00] State.reset, w.1 ≠ 0x102A) ∧
    bufAdmits State.reset.cfg 0x1029 = true ∧ bufAdmits State.reset.cfg 0x102A = true := by
  have hd : decode [0x25, 0x00, 0x00, 0x10, 0x00, 0x00, 0x00] = .ok (.uwrhdr 0x1000 0) := by decide
  refine ⟨?_, ?_, ?_, default_admits _, default_admits _⟩
  · obtain ⟨t, ht, -⟩ := uwrhdr_runs 0x1000 0 State.reset rfl
    exact ⟨t, (runPacket_ok hd _).trans ht⟩
  · rw [packetWrites, hd]
    exact ⟨(0x1029, _), mem_imageWrites.mpr ⟨41, by simp, rfl⟩, rfl⟩
  · rw [packetWrites, hd]
    rintro w hw
    obtain ⟨k, hk, rfl⟩ := mem_imageWrites.mp hw
    have : k < 42 := by simpa using hk
    show (0x1000 : Addr) + BitVec.ofNat 32 k ≠ 0x102A
    bv_omega

theorem witness_AgentWriteLands :
    (given (.agentWrite (0xFFFFFFFF, 0x5A))).cmd = .agentWrite (0xFFFFFFFF, 0x5A) :: [] ∧
    bufAdmits State.reset.cfg 0xFFFFFFFF = true := ⟨rfl, default_admits _⟩

/-- The headers of V-CK1 to V-CK4 and V-CK7. -/
def headerCK1 : IpHeader :=
  #v[0x45, 0x00, 0x01, 0x1C, 0x00, 0x00, 0x40, 0x00, 0x40, 0x11, 0x00, 0x00,
     0x0A, 0x0B, 0x0C, 0x01, 0x0A, 0x0B, 0x0C, 0xFF]
def headerCK4 : IpHeader :=
  #v[0xFF, 0xFF, 0xFF, 0xFF, 0xFF, 0xFF, 0xFF, 0xFF, 0xFF, 0xFF, 0x12, 0x34,
     0xFF, 0xFF, 0xFF, 0xFF, 0xFF, 0xFF, 0x00, 0x07]

/-- Both clauses of R65's case distinction, and both ends of the range of `S`. -/
theorem witness_ChecksumClosedForm :
    0x10000 ≤ foldOnce (headerSum headerCK4) ∧ foldOnce (headerSum headerCK1) < 0x10000 ∧
    headerSum (Vector.replicate 20 0xFF) = 0x8FFF7 ∧ headerSum (Vector.replicate 20 0x00) = 0 := by decide

/-- R67: the two corners, V-CK2 (with V-CK9's field) and V-CK7. -/
theorem witness_ChecksumRange :
    headerSum (withField (Vector.replicate 20 0x00) 0xFF 0xFF) = 0 ∧
    headerSum ((Vector.replicate 20 0x00).set 0 0xFF |>.set 1 0xFF) ≠ 0 ∧
    headerSum ((Vector.replicate 20 0x00).set 0 0xFF |>.set 1 0xFF) % 0xFFFF = 0 := by decide

theorem witness_CksumAnswersChecksum :
    headerSum (Vector.replicate 20 0x00) = 0 ∧ headerSum (Vector.replicate 20 0xFF) ≠ 0 ∧
    headerSum (Vector.replicate 20 0xFF) % 0xFFFF = 0 := by decide

/-- Both sides of each palindrome clause, and a byte index at each end. -/
theorem witness_ConversionsAreInvolutions :
    Config.default.hostBigEndian = false ∧ hton16 Config.default 0xABAB = 0xABAB ∧
    hton16 Config.default 0x1234 ≠ 0x1234 ∧ hton32 Config.default 0x12343412 = 0x12343412 ∧
    hton64 Config.default 0xFF000000000000FF = 0xFF000000000000FF := by decide

theorem witness_HalvesAlgorithmReversesBytes :
    (bswap64 0x123456789ABCDEF0).extractLsb' 0 8 = 0x12 ∧ (bswap64 0x123456789ABCDEF0).extractLsb' 56 8 = 0xF0 := by
  decide

theorem witness_ConversionsRelateStorage :
    hostStore Config.default.hostBigEndian 2 0x3412 = be16 0x1234 ∧ hostStore cfg2.hostBigEndian 2 0x1234 = be16 0x1234 ∧
    hostStore Config.default.hostBigEndian 4 0x010C0B0A = be32 0x0A0B0C01 ∧
    hostStore Config.default.hostBigEndian 8 0xF0DEBC9A78563412 = be64 0x123456789ABCDEF0 := by decide

theorem witness_ConversionsKeepTheirWidth : Config.default.hostBigEndian = false ∧ (0x1234 : BitVec 16) ≠ 0 := by decide

theorem witness_UconsLoadsDefaults :
    State.reset.tu = (State.resetOf State.reset.cfg).tu ∧
    ∃ t u, exec .ucons State.reset = .next t ∧ exec .ucons t = .next u := ⟨rfl, _, _, rfl, rfl⟩

/-- Any header that agrees with the image outside its checksum field, for one with a zero field. -/
theorem witness_UdpImageBytes :
    ∀ (k : Nat) (hk : k < 20), k ≠ 10 → k ≠ 11 → headerCK1[k] = (imageU configuredU 256)[14 + k] := by decide

/-- Each row of V-U5 at which two clauses meet, with the integers of R89. -/
theorem witness_UdpLengthsAndContractRange :
    (65507#16).toNat ≤ 65507 ∧ 65508 ≤ (65508#16).toNat ∧ (65508#16).toNat ≤ 65527 ∧
    65508 ≤ (65527#16).toNat ∧ (65527#16).toNat ≤ 65527 ∧ 65528 ≤ (65528#16).toNat ∧ 65528 ≤ (65535#16).toNat ∧
    (0#16).toNat ≤ 65507 := by decide

/-- A stamp that completes, and the header it leaves (V-U7). -/
theorem witness_StampedUdpHeaderVerifies :
    ∃ t, exec (.uwrhdr 0x3000 0) State.reset = .next t ∧
      ∀ (k : Nat) (hk : k < 20), readBuf t (0x3000 + BitVec.ofNat 32 (14 + k)) =
        some ((slice (imageU State.reset.tu 0) 14 20 (by decide))[k]) := by
  have h := (exec_uwrhdr 0x3000 0 State.reset).trans (stamp_of_admits fun _ _ => default_admits _)
  refine ⟨_, h, fun k hk => ?_⟩
  rw [getElem_slice, readBuf, State.respond_buf, State.setBuf_buf,
    read_imageWrites _ _ (by simp) (14 + k) (by simp; omega)]
  simp

/-- The invariant holds at reset; the provers state and prove it for every configuration. -/
theorem witness_blockInv : BlockInv State.reset :=
  ⟨by simp only [HoldsBytes]; decide, by simp only [HoldsBytes]; decide, by simp only [HoldsBytes]; decide,
    by simp only [HoldsBytes]; decide, by simp only [HoldsBytes]; decide, by decide⟩

theorem witness_StampedUdpHeaderFixedContent :
    BlockInv State.reset ∧ ∃ t, exec (.uwrhdr 0 0) State.reset = .next t :=
  ⟨witness_blockInv, (uwrhdr_runs 0 0 _ rfl).imp fun _ h => h.1⟩

/-- Two stamps, at different addresses and at the same one, from a canonical `BUF`. -/
theorem witness_UdpStampIsIdempotent :
    Memory.wf State.reset.buf ∧
    (∃ t u, exec (.uwrhdr 0x4000 95) State.reset = .next t ∧ exec (.uwrhdr 0x4100 95) t = .next u) ∧
    ∃ t u, exec (.uwrhdr 0x4000 95) State.reset = .next t ∧ exec (.uwrhdr 0x4000 95) t = .next u := by
  obtain ⟨t, ht, hc, -⟩ := uwrhdr_runs 0x4000 95 State.reset rfl
  obtain ⟨u, hu, -⟩ := uwrhdr_runs 0x4100 95 t hc
  obtain ⟨v, hv, -⟩ := uwrhdr_runs 0x4000 95 t hc
  exact ⟨by decide, ⟨t, u, ht, hu⟩, ⟨t, v, ht, hv⟩⟩

/-- Setters of different fields, and two of the same field. -/
theorem witness_UdpSettersCommute :
    udpField (.usip #v[1, 2, 3, 4] #v[5, 6, 7, 8]) = some .ip ∧ udpField (.usport 1 2) = some .port ∧
    udpField (.usmacb #v[1, 2, 3, 4, 5, 6]) = some .mac ∧ Field.ip ≠ Field.port ∧
    (∃ t u t' u', exec (.usip #v[1, 2, 3, 4] #v[5, 6, 7, 8]) State.reset = .next t ∧ exec (.usport 1 2) t = .next u ∧
      exec (.usport 1 2) State.reset = .next t' ∧ exec (.usip #v[1, 2, 3, 4] #v[5, 6, 7, 8]) t' = .next u') ∧
    ∃ t u t', exec (.usport 3 4) State.reset = .next t ∧ exec (.usport 1 2) t = .next u ∧
      exec (.usport 1 2) State.reset = .next t' :=
  ⟨rfl, rfl, rfl, by decide, ⟨_, _, _, _, rfl, rfl, rfl, rfl⟩, ⟨_, _, _, rfl, rfl, rfl⟩⟩

theorem witness_RconsLoadsDefaults :
    State.reset.tr = (State.resetOf State.reset.cfg).tr ∧
    ∃ t u, exec .rcons State.reset = .next t ∧ exec .rcons t = .next u := ⟨rfl, _, _, rfl, rfl⟩

theorem witness_RdmxImageBytes :
    ∀ (k : Nat) (hk : k < 20), k ≠ 10 → k ≠ 11 →
      (slice (imageR configuredR 256 0) 14 20 (by decide))[k] = (imageR configuredR 256 0)[14 + k] :=
  fun k hk _ _ => getElem_slice _ _ _ _ k hk

/-- Each row of V-R3 at which two clauses meet. -/
theorem witness_RdmxLengthsAndContractRange :
    (65485#16).toNat ≤ 65485 ∧ 65486 ≤ (65486#16).toNat ∧ (65486#16).toNat ≤ 65505 ∧ 65486 ≤ (65505#16).toNat ∧
    (65505#16).toNat ≤ 65505 ∧ 65506 ≤ (65506#16).toNat ∧ 65506 ≤ (65535#16).toNat := by decide

theorem witness_StampedRdmxHeaderVerifies :
    ∃ t, exec (.rwrhdr 0x2000 0 0) State.reset = .next t ∧
      ∀ (k : Nat) (hk : k < 20), readBuf t (0x2000 + BitVec.ofNat 32 (14 + k)) =
        some ((slice (imageR State.reset.tr 0 0) 14 20 (by decide))[k]) := by
  have h := (exec_rwrhdr 0x2000 0 0 State.reset).trans (stamp_of_admits fun _ _ => default_admits _)
  refine ⟨_, h, fun k hk => ?_⟩
  rw [getElem_slice, readBuf, State.respond_buf, State.setBuf_buf,
    read_imageWrites _ _ (by simp) (14 + k) (by simp; omega)]
  simp

/-- A stamp from reset, and two templates that agree on bytes 0 to 35 (V-U2, V-R2). -/
theorem witness_StampedRdmxHeaderContent :
    BlockInv State.reset ∧ (∃ t, exec (.rwrhdr 0 0 0) State.reset = .next t) ∧
    ∀ (k : Nat) (hk : k < 36), configuredU[k] = configuredR[k] :=
  ⟨witness_blockInv, (rwrhdr_runs 0 0 0 _ rfl).imp fun _ h => h.1, by decide⟩

theorem witness_RdmxStampIsIdempotent :
    (∃ t u, exec (.rwrhdr 0x2000 256 7) State.reset = .next t ∧ t.tr = State.reset.tr ∧
      exec (.rwrhdr 0x3000 256 7) t = .next u) ∧
    ∃ t u, exec (.rwrhdr 0x2000 256 7) State.reset = .next t ∧ exec (.rwrhdr 0x2040 0 0) t = .next u := by
  obtain ⟨t, ht, hc, -, htr⟩ := rwrhdr_runs 0x2000 256 7 State.reset rfl
  obtain ⟨u, hu, -⟩ := rwrhdr_runs 0x3000 256 7 t hc
  obtain ⟨v, hv, -⟩ := rwrhdr_runs 0x2040 0 0 t hc
  exact ⟨⟨t, u, ht, htr, hu⟩, ⟨t, v, ht, hv⟩⟩

theorem witness_RdmxSettersCommute :
    BlockInv State.reset ∧ rdmxField (.rsip #v[1, 2, 3, 4] #v[5, 6, 7, 8]) = some .ip ∧
    rdmxField (.rsport 1) = some .port ∧ rdmxField (.rsmacb #v[1, 2, 3, 4, 5, 6]) = some .mac ∧
    Field.ip ≠ Field.port ∧
    (∃ t u t' u', exec (.rsip #v[1, 2, 3, 4] #v[5, 6, 7, 8]) State.reset = .next t ∧ exec (.rsport 1) t = .next u ∧
      exec (.rsport 1) State.reset = .next t' ∧ exec (.rsip #v[1, 2, 3, 4] #v[5, 6, 7, 8]) t' = .next u') ∧
    (∃ t u t', exec (.rsport 3) State.reset = .next t ∧ exec (.rsport 1) t = .next u ∧
      exec (.rsport 1) State.reset = .next t') ∧
    Instr.rsport 1 ≠ .rcons :=
  ⟨witness_blockInv, rfl, rfl, rfl, by decide, ⟨_, _, _, _, rfl, rfl, rfl, rfl⟩, ⟨_, _, _, rfl, rfl, rfl⟩, by decide⟩

/-- A canonical `BUF` with bytes at both ends of the space. -/
theorem witness_ResetStatesSatisfyInvariant : Memory.wf [(0, 0x11), (0xFFFFFFFF, 0x22)] := by decide

theorem witness_EveryStepKeepsInvariant :
    BlockInv (given (.packet [0x34, 0x04, 0xD2])) ∧ ∃ t, step (given (.packet [0x34, 0x04, 0xD2])) = .next t :=
  ⟨⟨witness_blockInv.1, witness_blockInv.2, witness_blockInv.3, witness_blockInv.4, witness_blockInv.5,
    witness_blockInv.6⟩, _, rfl⟩

theorem witness_ReachableTemplatesHoldFixedFields : Reachable (State.reset.setCmd (State.reset.cmd ++ [.reset])) :=
  .arrive _ _ (.reset Config.default [] (by decide))

theorem witness_ParametersNeverChange : ∃ t, step (given .reset) = .next t := ⟨_, rfl⟩

/-- A command of each sort. -/
theorem witness_OnlyNamedCommandsWrite :
    WritesTu (.usport 1 2) ∧ ¬ WritesTr (.usport 1 2) ∧ ¬ IsStamp (.usport 1 2) ∧
    (∃ t, exec (.usport 1 2) State.reset = .next t) ∧
    WritesTr (.rsport 1) ∧ ¬ WritesTu (.rsport 1) ∧ (∃ t, exec (.rsport 1) State.reset = .next t) :=
  ⟨.inr rfl, by simp [WritesTr, rdmxField], id, ⟨_, rfl⟩, .inr rfl, by simp [WritesTu, udpField], ⟨_, rfl⟩⟩

theorem witness_CommandsPerformTheirWrites :
    (∃ t, exec (.uwrhdr 0 0) State.reset = .next t) ∧ ¬ IsStamp (.hton16 0) :=
  ⟨(uwrhdr_runs 0 0 _ rfl).imp fun _ h => h.1, id⟩

/-- One byte of a stamp outside storage, and one in a device; the two clauses exclude each other. -/
theorem witness_CommandsStopOnlyOnUnbackedStamp :
    (∀ w ∈ writesOf (.uwrhdr 0 0) State.reset, bufAdmits State.reset.cfg w.1 = true) ∧
    (∃ w ∈ writesOf (.uwrhdr 0x10 0) (State.resetOf { Config.default with bufMap := [⟨0x39, 1, .device⟩] }),
      bufKind (State.resetOf { Config.default with bufMap := [⟨0x39, 1, .device⟩] }).cfg w.1 = some .device) ∧
    (∃ w ∈ writesOf (.uwrhdr 0x10 0) (State.resetOf { Config.default with bufMap := [⟨0, 0x39, .storage⟩] }),
      bufAdmits (State.resetOf { Config.default with bufMap := [⟨0, 0x39, .storage⟩] }).cfg w.1 = false) ∧
    ∀ w ∈ writesOf (.uwrhdr 0x10 0) (State.resetOf { Config.default with bufMap := [⟨0, 0x39, .storage⟩] }),
      bufKind (State.resetOf { Config.default with bufMap := [⟨0, 0x39, .storage⟩] }).cfg w.1 ≠ some .device := by
  refine ⟨fun _ _ => default_admits _, ?_, ?_, fun w _ => ?_⟩
  · exact ⟨(0x39, _), mem_imageWrites.mpr ⟨41, by simp, rfl⟩, by decide⟩
  · exact ⟨(0x39, _), mem_imageWrites.mpr ⟨41, by simp, rfl⟩, by decide⟩
  · simp only [bufKind, State.resetOf, List.find?_cons, List.find?_nil]
    split <;> simp

theorem witness_StampWriteOrderLeavesSameBuf :
    (writesOf (.uwrhdr 0 0) State.reset).reverse.Perm (writesOf (.uwrhdr 0 0) State.reset) ∧
    Memory.wf State.reset.buf := ⟨List.reverse_perm _, by decide⟩

/-- Two stamps that overlap in all but the first byte of the first, which only the first writes. -/
theorem witness_LaterStampWins :
    (∃ t u, exec (.uwrhdr 0 0) State.reset = .next t ∧ exec (.rwrhdr 1 0 0) t = .next u) ∧
    (∃ w ∈ writesOf (.rwrhdr 1 0 0) State.reset, w.1 = 41) ∧ (∃ w ∈ writesOf (.uwrhdr 0 0) State.reset, w.1 = 41) ∧
    ∃ w ∈ writesOf (.uwrhdr 0 0) State.reset, ∀ x ∈ writesOf (.rwrhdr 1 0 0) State.reset, x.1 ≠ w.1 := by
  obtain ⟨t, ht, hc, -⟩ := uwrhdr_runs 0 0 State.reset rfl
  obtain ⟨u, hu, -⟩ := rwrhdr_runs 1 0 0 t hc
  refine ⟨⟨t, u, ht, hu⟩, ⟨(41, _), mem_imageWrites.mpr ⟨40, by simp, rfl⟩, rfl⟩,
    ⟨(41, _), mem_imageWrites.mpr ⟨41, by simp, rfl⟩, rfl⟩,
    ⟨(0, _), mem_imageWrites.mpr ⟨0, by simp, rfl⟩, fun x hx => ?_⟩⟩
  obtain ⟨k, hk, rfl⟩ := mem_imageWrites.mp hx
  have : k < 64 := by simpa using hk
  show (1 : Addr) + BitVec.ofNat 32 k ≠ 0
  bv_omega

theorem witness_HeadersIgnoreHostByteOrder :
    ¬ IsConversion (.uwrhdr 0 0) ∧ ∃ t, exec (.uwrhdr 0 0) State.reset = .next t :=
  ⟨id, (uwrhdr_runs 0 0 _ rfl).imp fun _ h => h.1⟩

end Sys2Proof.Tests
end

/-! # The state's invariant and reset (10_state.md section 6, 70_reset_and_hazards.md R117) -/

namespace Sys2Proof.Machine

open Sys2Proof.Claims

/-! ## Overwrites and the bytes an array holds -/

theorem holdsBytes_append {n : Nat} {t : Vector Byte n} {l l' : List (Nat × Byte)} :
    HoldsBytes t (l ++ l') ↔ HoldsBytes t l ∧ HoldsBytes t l' :=
  List.forall_mem_append

section Overwrites

variable {n : Nat} {t : Vector Byte n} {l : List (Nat × Byte)}

/-- The frame of an overwrite: the listed bytes outside its range stay. -/
theorem HoldsBytes.patch {m a : Nat} (h : HoldsBytes t l) (b : Vector Byte m)
    (hout : ∀ p ∈ l, p.1 < a ∨ a + m ≤ p.1) : HoldsBytes (Machine.patch t a b) l := by
  intro p hp
  obtain ⟨hn, hv⟩ := Vector.getElem?_eq_some_iff.mp (h p hp)
  have hfar : ¬ (a ≤ p.1 ∧ p.1 - a < m) := by have := hout p hp; omega
  rw [Vector.getElem?_eq_getElem hn, getElem_patch, dif_neg hfar, hv]

theorem HoldsBytes.patch_mac (h : HoldsBytes t l) (hl : ∀ p ∈ l, 12 ≤ p.1) (src dst : MacAddr) :
    HoldsBytes (Machine.patch (Machine.patch t 6 src) 0 dst) l :=
  (h.patch src fun p hp => .inr (hl p hp)).patch dst fun p hp => by have := hl p hp; omega

theorem HoldsBytes.patch_ip (h : HoldsBytes t l) (hl : ∀ p ∈ l, p.1 < 26 ∨ 34 ≤ p.1) (src dst : IpAddr) :
    HoldsBytes (Machine.patch (Machine.patch t 26 src) 30 dst) l :=
  (h.patch src fun p hp => by have := hl p hp; omega).patch dst fun p hp => by have := hl p hp; omega

theorem HoldsBytes.patch_ports (h : HoldsBytes t l) (hl : ∀ p ∈ l, p.1 < 34 ∨ 38 ≤ p.1) (sport dport : BitVec 16) :
    HoldsBytes (Machine.patch (Machine.patch t 34 (be16 sport)) 36 (be16 dport)) l :=
  (h.patch _ fun p hp => by have := hl p hp; omega).patch _ fun p hp => by have := hl p hp; omega

end Overwrites

/-! ## What R23 to R25 say of each template

A setter writes the MAC addresses at 0 .. 11, the IPv4 addresses at 26 .. 33 or the ports at 34 .. 37. The bytes of
R23 and R24 lie outside all three. The port of R25 does not: `RSPORT` writes it again, with the constant it holds. -/

/-- The bytes of `TU` that R23 and R24 fix. -/
def heldBytesU (c : Config) : List (Nat × Byte) := fixedBytes c ++ perFrameBytes

/-- The bytes of `TR` that R23 and R24 fix. -/
def heldBytesR (c : Config) : List (Nat × Byte) :=
  (fixedBytes c ++ rdmxFixedBytes c) ++ (perFrameBytes ++ targetBytes)

theorem heldBytesU_outside_setters (c : Config) : ∀ p ∈ heldBytesU c, (12 ≤ p.1 ∧ p.1 < 26) ∨ 38 ≤ p.1 := by
  simp [heldBytesU, fixedBytes, perFrameBytes]

theorem heldBytesR_outside_setters (c : Config) : ∀ p ∈ heldBytesR c, (12 ≤ p.1 ∧ p.1 < 26) ∨ 38 ≤ p.1 := by
  simp [heldBytesR, fixedBytes, rdmxFixedBytes, perFrameBytes, targetBytes]

theorem rdmxPortBytes_after_addresses (c : Config) : ∀ p ∈ rdmxPortBytes c, 36 ≤ p.1 := by
  simp [rdmxPortBytes]

/-- R23, R24 for `TU`. -/
def HeldU (c : Config) (t : TemplateU) : Prop := HoldsBytes t (heldBytesU c)

/-- R23, R24, R25 for `TR`. -/
structure HeldR (c : Config) (t : TemplateR) : Prop where
  held : HoldsBytes t (heldBytesR c)
  port : HoldsBytes t (rdmxPortBytes c)

theorem heldU_default (c : Config) : HeldU c (defaultU c) := by
  simp [HeldU, HoldsBytes, heldBytesU, fixedBytes, perFrameBytes, defaultU, defaultEthernet, defaultIpv4, defaultUdp]

theorem heldR_default (c : Config) : HeldR c (defaultR c) := by
  constructor
  · simp [HoldsBytes, heldBytesR, fixedBytes, rdmxFixedBytes, perFrameBytes, targetBytes, defaultR, defaultEthernet,
      defaultIpv4, defaultUdp, defaultExtension]
  · simp [HoldsBytes, rdmxPortBytes, defaultR, defaultEthernet, defaultIpv4, defaultUdp]

section Setters

variable {c : Config}

theorem HeldU.patch_mac {t : TemplateU} (h : HeldU c t) (src dst : MacAddr) :
    HeldU c (patch (patch t 6 src) 0 dst) :=
  HoldsBytes.patch_mac h (fun p hp => by have := heldBytesU_outside_setters c p hp; omega) src dst

theorem HeldU.patch_ip {t : TemplateU} (h : HeldU c t) (src dst : IpAddr) :
    HeldU c (patch (patch t 26 src) 30 dst) :=
  HoldsBytes.patch_ip h (fun p hp => by have := heldBytesU_outside_setters c p hp; omega) src dst

theorem HeldU.patch_ports {t : TemplateU} (h : HeldU c t) (sport dport : BitVec 16) :
    HeldU c (patch (patch t 34 (be16 sport)) 36 (be16 dport)) :=
  HoldsBytes.patch_ports h (fun p hp => by have := heldBytesU_outside_setters c p hp; omega) sport dport

theorem HeldR.patch_mac {t : TemplateR} (h : HeldR c t) (src dst : MacAddr) :
    HeldR c (patch (patch t 6 src) 0 dst) where
  held := h.held.patch_mac (fun p hp => by have := heldBytesR_outside_setters c p hp; omega) src dst
  port := h.port.patch_mac (fun p hp => by have := rdmxPortBytes_after_addresses c p hp; omega) src dst

theorem HeldR.patch_ip {t : TemplateR} (h : HeldR c t) (src dst : IpAddr) :
    HeldR c (patch (patch t 26 src) 30 dst) where
  held := h.held.patch_ip (fun p hp => by have := heldBytesR_outside_setters c p hp; omega) src dst
  port := h.port.patch_ip (fun p hp => by have := rdmxPortBytes_after_addresses c p hp; omega) src dst

/-- R97: `RSPORT` writes the constant of R25 over itself. -/
theorem HeldR.patch_port {t : TemplateR} (h : HeldR c t) (sport : BitVec 16) :
    HeldR c (patch (patch t 34 (be16 sport)) 36 (be16 c.rdmxDstPort)) where
  held := h.held.patch_ports (fun p hp => by have := heldBytesR_outside_setters c p hp; omega) sport _
  port := by simp [HoldsBytes, rdmxPortBytes]

end Setters

/-! ## The invariant under the state's operations -/

/-- The six parts of the invariant, grouped by the field they speak of. -/
theorem blockInv_iff {s : State} : BlockInv s ↔ HeldU s.cfg s.tu ∧ HeldR s.cfg s.tr ∧ Memory.wf s.buf := by
  constructor
  · rintro ⟨tuFixed, trFixed, tuFrame, trFrame, port, canonical⟩
    exact ⟨holdsBytes_append.mpr ⟨tuFixed, tuFrame⟩, ⟨holdsBytes_append.mpr ⟨trFixed, trFrame⟩, port⟩, canonical⟩
  · rintro ⟨heldU, ⟨heldR, port⟩, canonical⟩
    obtain ⟨tuFixed, tuFrame⟩ := holdsBytes_append.mp heldU
    obtain ⟨trFixed, trFrame⟩ := holdsBytes_append.mp heldR
    exact ⟨tuFixed, trFixed, tuFrame, trFrame, port, canonical⟩

section Operations

variable {s : State}

theorem BlockInv.heldU (h : BlockInv s) : HeldU s.cfg s.tu := (blockInv_iff.mp h).1

theorem BlockInv.heldR (h : BlockInv s) : HeldR s.cfg s.tr := (blockInv_iff.mp h).2.1

theorem BlockInv.setTu (h : BlockInv s) {x : TemplateU} (hx : HeldU s.cfg x) : BlockInv (s.setTu x) :=
  blockInv_iff.mpr ⟨hx, h.heldR, h.bufCanonical⟩

theorem BlockInv.setTr (h : BlockInv s) {x : TemplateR} (hx : HeldR s.cfg x) : BlockInv (s.setTr x) :=
  blockInv_iff.mpr ⟨h.heldU, hx, h.bufCanonical⟩

theorem BlockInv.setBuf (h : BlockInv s) {m : Memory} (hm : Memory.wf m) : BlockInv (s.setBuf m) :=
  blockInv_iff.mpr ⟨h.heldU, h.heldR, hm⟩

theorem BlockInv.setCmd (h : BlockInv s) (q : List Input) : BlockInv (s.setCmd q) :=
  blockInv_iff.mpr ⟨h.heldU, h.heldR, h.bufCanonical⟩

theorem BlockInv.send (h : BlockInv s) (q : Packet) : BlockInv (s.send q) :=
  blockInv_iff.mpr ⟨h.heldU, h.heldR, h.bufCanonical⟩

theorem BlockInv.respond (h : BlockInv s) (result : List Byte) : BlockInv (s.respond result) := h.send _

theorem BlockInv.raiseIllegal (h : BlockInv s) : BlockInv s.raiseIllegal := h.send _

theorem BlockInv.countDraw (h : BlockInv s) : BlockInv s.countDraw :=
  blockInv_iff.mpr ⟨h.heldU, h.heldR, h.bufCanonical⟩

theorem BlockInv.writeAll (h : BlockInv s) (ws : List BufWrite) :
    BlockInv (s.setBuf (Memory.writeAll s.buf ws)) :=
  h.setBuf (Memory.wf_writeAll h.bufCanonical ws)

theorem BlockInv.resetBlock (h : BlockInv s) : BlockInv s.resetBlock :=
  (h.setTu (heldU_default _)).setTr (heldR_default _)

end Operations

theorem blockInv_resetOf (c : Config) {m : Memory} (hm : Memory.wf m) : BlockInv ((State.resetOf c).setBuf m) :=
  blockInv_iff.mpr ⟨heldU_default c, heldR_default c, hm⟩

/-! ## The invariant under commands, inputs and steps -/

theorem BlockInv.stamp {dest : Addr} {image : List Byte} {s t : State} (h : BlockInv s)
    (ht : Machine.stamp dest image s = .next t) : BlockInv t := by
  rw [(stamp_next ht).1]
  exact (h.writeAll _).respond _

theorem BlockInv.exec {i : Instr} {s t : State} (h : BlockInv s) (ht : Machine.exec i s = .next t) : BlockInv t := by
  cases i with
  | cksum _ | hton16 _ | hton32 _ | hton64 _ | ntoh16 _ | ntoh32 _ | ntoh64 _ =>
    cases ht
    exact h.respond _
  | ucons =>
    cases (exec_ucons s).symm.trans ht
    exact (h.setTu (heldU_default _)).respond _
  | usmac src dst =>
    cases (exec_usmac src dst s).symm.trans ht
    exact (h.setTu (h.heldU.patch_mac src dst)).respond _
  | usmacb src =>
    cases (exec_usmacb src s).symm.trans ht
    exact (h.setTu (h.heldU.patch_mac src broadcastMac)).respond _
  | usip src dst =>
    cases (exec_usip src dst s).symm.trans ht
    exact (h.setTu (h.heldU.patch_ip src dst)).respond _
  | usport sport dport =>
    cases (exec_usport sport dport s).symm.trans ht
    exact (h.setTu (h.heldU.patch_ports sport dport)).respond _
  | rcons =>
    cases (exec_rcons s).symm.trans ht
    exact (h.setTr (heldR_default _)).respond _
  | rsmac src dst =>
    cases (exec_rsmac src dst s).symm.trans ht
    exact (h.setTr (h.heldR.patch_mac src dst)).respond _
  | rsmacb src =>
    cases (exec_rsmacb src s).symm.trans ht
    exact (h.setTr (h.heldR.patch_mac src broadcastMac)).respond _
  | rsip src dst =>
    cases (exec_rsip src dst s).symm.trans ht
    exact (h.setTr (h.heldR.patch_ip src dst)).respond _
  | rsport sport =>
    cases (exec_rsport sport s).symm.trans ht
    exact (h.setTr (h.heldR.patch_port sport)).respond _
  | uwrhdr dest plen => exact h.stamp ((exec_uwrhdr dest plen s).symm.trans ht)
  | rwrhdr dest plen target => exact h.stamp ((exec_rwrhdr dest plen target s).symm.trans ht)

theorem BlockInv.runPacket {p : Packet} {s t : State} (h : BlockInv s) (ht : Machine.runPacket p s = .next t) :
    BlockInv t := by
  obtain ⟨i, -, hi⟩ | ⟨-, rfl⟩ := runPacket_cases ht
  · exact h.exec hi
  · exact h.raiseIllegal

theorem BlockInv.takeInput {e : Input} {s t : State} (h : BlockInv s) (ht : Machine.takeInput e s = .next t) :
    BlockInv t := by
  cases e with
  | packet p => exact h.runPacket ht
  | packetRacing p agents =>
    obtain ⟨u, hu, rfl⟩ := runRacing_next ht
    exact ((h.runPacket hu).writeAll _).countDraw
  | packetReset p agents =>
    rw [runAbandoned_next ht]
    exact (h.resetBlock.writeAll _).countDraw
  | reset =>
    cases (takeInput_reset s).symm.trans ht
    exact h.resetBlock
  | agentWrite w =>
    rw [(agentWrites_next ht).1]
    exact h.writeAll _

theorem BlockInv.step {s t : State} (h : BlockInv s) (ht : Machine.step s = .next t) : BlockInv t := by
  obtain ⟨-, rfl⟩ | ⟨e, rest, -, he⟩ := step_cases ht
  · exact h
  · exact (h.setCmd rest).takeInput he

theorem Reachable.blockInv {s : State} (h : Reachable s) : BlockInv s := by
  induction h with
  | reset c m hm => exact blockInv_resetOf c hm
  | arrive s e _ ih => exact ih.setCmd _
  | step s t _ ht ih => exact ih.step ht

/-- Settles O53: the templates' part of the invariant, which reset establishes and every step keeps. -/
theorem reachableTemplatesHoldFixedFields : Obligations.ReachableTemplatesHoldFixedFields := by
  intro s hs
  have inv := hs.blockInv
  exact ⟨inv.tuFixed, inv.trFixed, inv.tuPerFrame, inv.trPerFrame, inv.trPort⟩

/-! ## Reset -/

theorem toList_defaultU (c : Config) : (defaultU c).toList = udpDefaults c := rfl

theorem toList_defaultR (c : Config) : (defaultR c).toList = rdmxDefaults c := rfl

theorem step_reset {s : State} {rest : List Input} (h : s.cmd = .reset :: rest) :
    step s = .next (s.setCmd rest).resetBlock :=
  (step_input h).trans (takeInput_reset _)

/-- The frame of `RESET`: only the templates change. -/
theorem resetBlock_sameSurroundings (s : State) : SameSurroundings s s.resetBlock :=
  ⟨s.resetBlock_cfg, s.resetBlock_cmd, s.resetBlock_draws⟩

theorem sameBuf_of_buf_eq {s t : State} (h : t.buf = s.buf) : SameBuf s t := fun a => by
  rw [readBuf, readBuf, h]

/-- R117: `RESET` leaves the templates that `UCONS; RCONS` leaves. -/
theorem ucons_rcons_templates {s t u : State} (ht : exec .ucons s = .next t) (hu : exec .rcons t = .next u) :
    u.tu = s.resetBlock.tu ∧ u.tr = s.resetBlock.tr := by
  cases (exec_ucons s).symm.trans ht
  cases (exec_rcons _).symm.trans hu
  simp

/-- Settles O11: `RESET` is one step to `State.resetBlock`, whose templates are the default images. -/
theorem resetLoadsBothTemplates : Obligations.ResetLoadsBothTemplates := by
  refine ⟨fun s rest h => ⟨_, step_reset h, ?_⟩, fun s t u => ucons_rcons_templates,
    fun c => ⟨toList_defaultU c, toList_defaultR c⟩⟩
  exact ⟨toList_defaultU s.cfg, toList_defaultR s.cfg, resetBlock_sameSurroundings _, sameBuf_of_buf_eq rfl, rfl⟩

end Sys2Proof.Machine

/-! # Packets and commands (30_encoding.md R45 to R59) -/

namespace Sys2Proof.Machine

open Sys2Proof.Claims

/-! ## The opcode map -/

/-- R46 as the claims list it is the model's opcode map with each format's length. -/
theorem assigned_eq_opcodeRows : assigned = opcodeRows.map fun r => (r.opcode, formatLength r.format) := rfl

/-- The map lists no opcode byte twice, so its rows and the decoder's lookup say the same. -/
theorem mem_assigned_iff {op : Byte} {n : Nat} : (op, n) ∈ assigned ↔ opcodeLength op = some n := by
  constructor
  · have lookup : ∀ r ∈ assigned, opcodeLength r.1 = some r.2 := by decide
    exact lookup (op, n)
  · intro h
    obtain ⟨r, hr, rfl⟩ := Option.map_eq_some_iff.mp h
    have hop : r.opcode = op := by simpa using List.find?_some hr
    rw [assigned_eq_opcodeRows, ← hop]
    exact List.mem_map_of_mem (List.mem_of_find?_eq_some hr)

theorem unassigned_iff {op : Byte} : (∀ n, (op, n) ∉ assigned) ↔ opcodeLength op = none := by
  simp only [mem_assigned_iff, Option.eq_none_iff_forall_ne_some, ne_eq]

/-- R59: the reserved opcode bytes. -/
theorem opcodeLength_eq_none_iff : ∀ op : Byte, opcodeLength op = none ↔
    (0x01 ≤ op ∧ op ≤ 0x0F) ∨ op = 0x13 ∨ (0x17 ≤ op ∧ op ≤ 0x1F) ∨ (0x26 ≤ op ∧ op ≤ 0x2F) ∨ 0x36 ≤ op := by
  decide +kernel

/-- R59: `decode` answers a command exactly for a packet that is one. -/
theorem exists_decode_iff_isCommand (p : Packet) : (∃ i, decode p = .ok i) ↔ IsCommand p := by
  constructor
  · rintro ⟨i, h⟩
    obtain ⟨op, ops, rfl, hn, -⟩ := decode_ok h
    exact ⟨op, ops, _, rfl, mem_assigned_iff.mpr hn, rfl⟩
  · rintro ⟨op, ops, n, rfl, hm, hl⟩
    have hn := mem_assigned_iff.mp hm
    have hi : (assembleCmd op (op :: ops)).isSome := by rw [assembleCmd_isSome, hn]; rfl
    obtain ⟨i, hi⟩ := Option.isSome_iff_exists.mp hi
    exact ⟨i, decode_of_assigned hn hi hl⟩

/-! ## Operands laid out again -/

theorem be16_u16At (p : Packet) (a : Nat) : be16 (u16At p a) = bytesAt p a 2 := be16_u16 _ _

theorem be32_u32At (p : Packet) (a : Nat) : be32 (u32At p a) = bytesAt p a 4 := be32_u32 _ _ _ _

theorem be64_u64At (p : Packet) (a : Nat) : be64 (u64At p a) = bytesAt p a 8 := be64_u64 _ _ _ _ _ _ _ _

/-- Adjacent operands are one stretch of the packet. -/
theorem toList_bytesAt_append (p : Packet) {a b n : Nat} (m : Nat) (h : a + n = b) :
    (bytesAt p a n).toList ++ (bytesAt p b m).toList = (bytesAt p a (n + m)).toList := by
  simp [toList_bytesAt, List.range_add, ← h, Nat.add_assoc]

/-- The bytes after the opcode byte. -/
theorem toList_bytesAt_tail (op : Byte) (ops : List Byte) : (bytesAt (op :: ops) 1 ops.length).toList = ops := by
  simpa using congrArg Vector.toList (bytesAt_only ⟨ops.toArray, List.size_toArray⟩ op)

/-- R46 to R56, row by row of the opcode map: the operands of a command fill its packet after the opcode byte, in
order and without a gap. -/
theorem encode_assembleCmd (p : Packet) : ∀ r ∈ assigned,
    (assembleCmd r.1 p).map encode = some (r.1 :: (bytesAt p 1 (r.2 - 1)).toList) := by
  simp [assigned, assembleCmd, encode, be16_u16At, be32_u32At, be64_u64At, toList_bytesAt_append]

/-- R58: the packet of the command that a packet decodes to is the packet itself. -/
theorem encode_of_decode {p : Packet} {i : Instr} (h : decode p = .ok i) : encode i = p := by
  obtain ⟨op, ops, rfl, hn, hi⟩ := decode_ok h
  have hrow := encode_assembleCmd (op :: ops) (op, ops.length + 1) (mem_assigned_iff.mpr hn)
  rw [hi, Nat.add_sub_cancel, toList_bytesAt_tail] at hrow
  exact Option.some.inj hrow

/-! ## Illegal packets -/

theorem raiseIllegal_onlyAnswers (s : State) : OnlyAnswers [0x01] s s.raiseIllegal :=
  ⟨⟨rfl, rfl, rfl⟩, rfl, rfl, sameBuf_of_buf_eq rfl, rfl⟩

theorem step_illegal {s : State} {p : Packet} {rest : List Input} (hc : s.cmd = .packet p :: rest)
    (hp : ¬ IsCommand p) : step s = .next (s.setCmd rest).raiseIllegal := by
  rw [step_input hc, takeInput_packet]
  exact runPacket_error (fun i hi => hp ((exists_decode_iff_isCommand p).mp ⟨i, hi⟩)) _

/-- Settles O2: the decoder's lookup is R46's table, and what it rejects only raises `ILLEGAL_COMMAND`. -/
theorem packetIsCommandExactlyWhenAssigned : Obligations.PacketIsCommandExactlyWhenAssigned :=
  ⟨exists_decode_iff_isCommand, fun _ _ => encode_of_decode,
    fun op => unassigned_iff.trans (opcodeLength_eq_none_iff op),
    fun _ _ _ hc hp => ⟨_, step_illegal hc hp, raiseIllegal_onlyAnswers _⟩⟩

end Sys2Proof.Machine

/-! # The IPv4 header checksum (40_checksum.md R63 to R68) -/

namespace Sys2Proof.Machine

open Sys2Proof.Claims

/-! ## The words of a header and their sum -/

theorem ipWord_eq_word (h : IpHeader) (i : Nat) (hi : i < 10) : ipWord h i hi = word h i hi := toNat_u16 _ _

theorem sumNine_eq_headerSum (h : IpHeader) : sumNine h = headerSum h := by
  simp only [sumNine, headerSum, ipWord_eq_word]

theorem word_le (h : IpHeader) (i : Nat) (hi : i < 10) : word h i hi ≤ 0xFFFF := by
  rw [← ipWord_eq_word]
  exact Nat.le_of_lt_succ (BitVec.isLt _)

/-- R65: nine words of at most 0xFFFF each. -/
theorem headerSum_le (h : IpHeader) : headerSum h ≤ 0x8FFF7 := by
  have bound := word_le h
  unfold headerSum
  linarith [bound 0 (by decide), bound 1 (by decide), bound 2 (by decide), bound 3 (by decide), bound 4 (by decide),
    bound 6 (by decide), bound 7 (by decide), bound 8 (by decide), bound 9 (by decide)]

/-- The bound of a sum of ten words, under which the facts on two folds hold. -/
theorem headerSum_le_tenWords (h : IpHeader) : headerSum h ≤ 0x9FFF6 := (headerSum_le h).trans (by decide)

/-! ## The checksum field -/

/-- Writing the field leaves every word but word 5. -/
theorem word_withField_of_ne (h : IpHeader) (a b : Byte) (i : Nat) (hi : i < 10) (hne : i ≠ 5) :
    word (withField h a b) i hi = word h i hi := by
  simp (disch := omega) only [word, withField, Vector.getElem_set_ne]

/-- Word 5 is the value whose bytes the field holds. -/
theorem word_five_withField (h : IpHeader) (v : BitVec 16) :
    word (withField h (hi8 v) (lo8 v)) 5 (by decide) = v.toNat := by
  simp [← ipWord_eq_word, ipWord, withField]

/-- R68 at the sum: word 5 is not among the nine. -/
theorem headerSum_withField (h : IpHeader) (a b : Byte) : headerSum (withField h a b) = headerSum h := by
  simp [headerSum, word_withField_of_ne]

/-! ## Carry folds

A fold keeps the residue modulo 0xFFFF, because 0x10000 is 1 there, and answers 0 for 0 only. Two folds bring a sum of
up to ten words to at most 0xFFFF, where these two facts determine the value. -/

theorem foldOnce_mod (x : Nat) : foldOnce x % 0xFFFF = x % 0xFFFF := by
  unfold foldOnce
  omega

theorem foldOnce_eq_zero_iff (x : Nat) : foldOnce x = 0 ↔ x = 0 := by
  unfold foldOnce
  omega

theorem foldOnce_eq_self {x : Nat} (hx : x ≤ 0xFFFF) : foldOnce x = x := by
  unfold foldOnce
  omega

/-- R65: the range of the first fold. -/
theorem foldOnce_le {x : Nat} (hx : x ≤ 0x8FFF7) : foldOnce x ≤ 0x10007 := by
  unfold foldOnce
  omega

/-- A fold of a 17-bit value with a carry adds the carry to the low half. -/
theorem foldOnce_of_carry {x : Nat} (hc : 0x10000 ≤ x) (hx : x < 0x20000) : foldOnce x = x % 65536 + 1 := by
  unfold foldOnce
  omega

theorem foldOnce_foldOnce_le {x : Nat} (hx : x ≤ 0x9FFF6) : foldOnce (foldOnce x) ≤ 0xFFFF := by
  unfold foldOnce
  omega

/-- R65: the closed form of two folds. -/
theorem foldOnce_foldOnce_eq {x : Nat} (hx : x ≤ 0x9FFF6) :
    foldOnce (foldOnce x) = if x = 0 then 0 else (x - 1) % 0xFFFF + 1 := by
  have hmod : foldOnce (foldOnce x) % 0xFFFF = x % 0xFFFF := (foldOnce_mod _).trans (foldOnce_mod x)
  have hzero : foldOnce (foldOnce x) = 0 ↔ x = 0 := (foldOnce_eq_zero_iff _).trans (foldOnce_eq_zero_iff x)
  have hle := foldOnce_foldOnce_le hx
  split <;> omega

/-- Two folds answer 0xFFFF exactly for the non-zero multiples of 0xFFFF. -/
theorem foldOnce_foldOnce_eq_max_iff {x : Nat} (hx : x ≤ 0x9FFF6) :
    foldOnce (foldOnce x) = 0xFFFF ↔ x ≠ 0 ∧ x % 0xFFFF = 0 := by
  rw [foldOnce_foldOnce_eq hx]
  split <;> omega

/-! ## The checksum -/

/-- R63: the folds of the exact sum fit sixteen bits, so the complement is a subtraction from 0xFFFF. -/
theorem toNat_cksum20 (h : IpHeader) : (cksum20 h).toNat = 0xFFFF - foldOnce (foldOnce (headerSum h)) := by
  have hle : foldOnce (foldOnce (headerSum h)) ≤ 0xFFFF := foldOnce_foldOnce_le (headerSum_le_tenWords h)
  have hfold : fold16 (fold16 (sumNine h)) = foldOnce (foldOnce (headerSum h)) := by
    rw [sumNine_eq_headerSum]
    rfl
  rw [cksum20, hfold, BitVec.toNat_not, BitVec.toNat_ofNat, Nat.mod_eq_of_lt (Nat.lt_succ_of_le hle)]

/-- Settles O15: the model's words, sum and folds are the claim's. -/
theorem checksumFormula : Obligations.ChecksumFormula := toNat_cksum20

/-- Settles O16: the range of the sum, and what folds do in it; the header of V-CK4 needs the second fold. -/
theorem checksumClosedForm : Obligations.ChecksumClosedForm := by
  refine ⟨fun h => ?_, #v[0xFF, 0xFF, 0xFF, 0xFF, 0xFF, 0xFF, 0xFF, 0xFF, 0xFF, 0xFF, 0x12, 0x34,
    0xFF, 0xFF, 0xFF, 0xFF, 0xFF, 0xFF, 0x00, 0x07], by decide⟩
  have hS := headerSum_le h
  have hF1 := foldOnce_le hS
  have hF2 := foldOnce_foldOnce_le (headerSum_le_tenWords h)
  refine ⟨hS, Nat.div_le_div_right hS, hF1, fun hc => ⟨by omega, foldOnce_of_carry hc (by omega)⟩,
    fun hc => foldOnce_eq_self (Nat.le_of_lt_succ hc), hF2, foldOnce_eq_self hF2, ?_⟩
  rw [toNat_cksum20, foldOnce_foldOnce_eq (headerSum_le_tenWords h)]

/-- Settles O19: the checksum depends on the nine-word sum only. -/
theorem checksumIgnoresItsField : Obligations.ChecksumIgnoresItsField := by
  intro h a b
  apply BitVec.eq_of_toNat_eq
  rw [toNat_cksum20, toNat_cksum20, headerSum_withField]

/-- R66: the sum and its checksum together are a non-zero multiple of 0xFFFF. -/
theorem headerSum_add_cksum20 (h : IpHeader) :
    headerSum h + (cksum20 h).toNat ≠ 0 ∧ (headerSum h + (cksum20 h).toNat) % 0xFFFF = 0 := by
  rw [toNat_cksum20, foldOnce_foldOnce_eq (headerSum_le_tenWords h)]
  split <;> omega

/-- Settles O17: the ten words add up to a non-zero multiple of 0xFFFF, which two folds bring to 0xFFFF. -/
theorem checksumSelfVerifies : Obligations.ChecksumSelfVerifies := by
  refine fun h => ⟨?_, checksumIgnoresItsField h _ _⟩
  have hle : headerSum h + (cksum20 h).toNat ≤ 0x9FFF6 := by
    have hS := headerSum_le h
    have hC := (cksum20 h).isLt
    omega
  rw [SelfVerifies, headerSum_withField, word_five_withField]
  exact (foldOnce_foldOnce_eq_max_iff hle).mpr (headerSum_add_cksum20 h)

theorem cksum20_eq_max_iff (h : IpHeader) : cksum20 h = 0xFFFF ↔ headerSum h = 0 := by
  have hF2 := foldOnce_foldOnce_le (headerSum_le_tenWords h)
  calc cksum20 h = 0xFFFF
    _ ↔ (cksum20 h).toNat = 0xFFFF := BitVec.toNat_eq
    _ ↔ foldOnce (foldOnce (headerSum h)) = 0 := by rw [toNat_cksum20]; omega
    _ ↔ headerSum h = 0 := (foldOnce_eq_zero_iff _).trans (foldOnce_eq_zero_iff _)

theorem cksum20_eq_zero_iff (h : IpHeader) : cksum20 h = 0x0000 ↔ headerSum h ≠ 0 ∧ headerSum h % 0xFFFF = 0 := by
  have hF2 := foldOnce_foldOnce_le (headerSum_le_tenWords h)
  calc cksum20 h = 0x0000
    _ ↔ (cksum20 h).toNat = 0 := BitVec.toNat_eq
    _ ↔ foldOnce (foldOnce (headerSum h)) = 0xFFFF := by rw [toNat_cksum20]; omega
    _ ↔ _ := foldOnce_foldOnce_eq_max_iff (headerSum_le_tenWords h)

/-- Settles O18: the two corners are the folds' values 0 and 0xFFFF. -/
theorem checksumRange : Obligations.ChecksumRange := fun h => ⟨cksum20_eq_max_iff h, cksum20_eq_zero_iff h⟩

/-! ## The command `CKSUM` -/

/-- R48: the packet of `CKSUM`. -/
theorem decode_cksum (h : IpHeader) : decode (0x00 :: h.toList) = .ok (.cksum h) :=
  decode_of_assigned (n := 21) rfl (congrArg (some ∘ Instr.cksum) (bytesAt_only h 0x00)) (by simp)

/-- A response of status OK changes nothing else. -/
theorem respond_onlyAnswers (result : List Byte) (s : State) : OnlyAnswers (0x00 :: result) s (s.respond result) :=
  ⟨⟨rfl, rfl, rfl⟩, rfl, rfl, sameBuf_of_buf_eq rfl, rfl⟩

/-- Settles O20: the packet, the response with its frame, and the checksum's corners. -/
theorem cksumAnswersChecksum : Obligations.CksumAnswersChecksum :=
  ⟨decode_cksum, fun h s => ⟨_, exec_cksum h s, respond_onlyAnswers _ s⟩, fun h => (cksum20_eq_max_iff h).mpr,
    fun h hne hmod => (cksum20_eq_zero_iff h).mpr ⟨hne, hmod⟩, checksumIgnoresItsField, by decide⟩

end Sys2Proof.Machine

/-! # The byte-order conversions (41_byteorder.md R69 to R79) -/

namespace Sys2Proof.Machine

open Sys2Proof.Claims

/-! ## What a conversion is, for every width -/

section Conversion

variable {w n : Nat}

/-- R69 for one width: `be` lays a value out most significant byte first without loss, and `conv` keeps the bytes of
that layout on a big-endian host and reverses them on a little-endian one. -/
structure Converts (big : Bool) (be : BitVec w → Vector Byte n) (conv : BitVec w → BitVec w) : Prop where
  layout_injective : Function.Injective be
  toList_conv : ∀ v, (be (conv v)).toList = if big then (be v).toList else (be v).toList.reverse

theorem Converts.of_swap {be : BitVec w → Vector Byte n} {swap : BitVec w → BitVec w}
    (hbe : Function.Injective be) (hswap : ∀ v, (be (swap v)).toList = (be v).toList.reverse) (big : Bool) :
    Converts big be fun v => if big then v else swap v := by
  refine ⟨hbe, fun v => ?_⟩
  cases big
  · exact hswap v
  · rfl

variable {big : Bool} {be : BitVec w → Vector Byte n} {conv : BitVec w → BitVec w}

/-- R77: reversing twice changes nothing. -/
theorem Converts.conv_conv (h : Converts big be conv) (v : BitVec w) : conv (conv v) = v := by
  apply h.layout_injective
  rw [← Vector.toList_inj, h.toList_conv, h.toList_conv]
  cases big <;> simp

/-- R77: a reversal fixes the palindromes only. -/
theorem Converts.conv_eq_self_iff (h : Converts false be conv) (v : BitVec w) :
    conv v = v ↔ (be v).toList.reverse = (be v).toList := by
  rw [← h.layout_injective.eq_iff, ← Vector.toList_inj, h.toList_conv]
  rfl

/-- R70 to R75: the response with its frame. -/
theorem Converts.onlyAnswers {s : State} (h : Converts s.cfg.hostBigEndian be conv) (v : BitVec w) :
    OnlyAnswers (0x00 :: if s.cfg.hostBigEndian then (be v).toList else (be v).toList.reverse) s
      (s.respond (be (conv v)).toList) :=
  h.toList_conv v ▸ respond_onlyAnswers _ s

end Conversion

section Storage

variable {n : Nat} {big : Bool} {be : BitVec (8 * n) → Vector Byte n} {conv : BitVec (8 * n) → BitVec (8 * n)}

/-- A little-endian host stores the bytes of a big-endian one in the reverse order. -/
theorem toList_hostStore_little (x : BitVec (8 * n)) :
    (hostStore false n x).toList = (hostStore true n x).toList.reverse := by
  apply List.ext_getElem
  · simp
  · intro k hk _
    have hk : k < n := by simpa using hk
    simp [hostStore, show 8 * n - 8 - 8 * (n - 1 - k) = 8 * k by omega]

/-- R78: what a host stores for `x` is the big-endian layout of the converted value. -/
theorem Converts.hostStore_eq (h : Converts big be conv) (hbe : be = hostStore true n) (x : BitVec (8 * n)) :
    hostStore big n x = be (conv x) := by
  rw [← Vector.toList_inj, h.toList_conv, hbe]
  cases big
  · exact toList_hostStore_little x
  · rfl

/-- R78: the bytes in memory after the host stores a converted value. -/
theorem Converts.hostStore_conv (h : Converts big be conv) (hbe : be = hostStore true n) (v : BitVec (8 * n)) :
    hostStore big n (conv v) = be v := by
  rw [h.hostStore_eq hbe, h.conv_conv]

/-- R33, R78: an integer whose stored bytes are the big-endian layout of `v`. -/
theorem Converts.eq_conv_of_hostStore_eq (h : Converts big be conv) (hbe : be = hostStore true n)
    (v x : BitVec (8 * n)) (hx : hostStore big n x = be v) : x = conv v ∧ conv x = v := by
  have hv : conv x = v := h.layout_injective ((h.hostStore_eq hbe x).symm.trans hx)
  exact ⟨by rw [← hv, h.conv_conv], hv⟩

end Storage

/-! ## The three widths -/

theorem be16_injective : Function.Injective be16 :=
  Function.LeftInverse.injective (g := fun b => u16 b[0] b[1]) u16_be16

theorem be32_injective : Function.Injective be32 :=
  Function.LeftInverse.injective (g := fun b => u32 b[0] b[1] b[2] b[3]) u32_be32

theorem be64_injective : Function.Injective be64 :=
  Function.LeftInverse.injective (g := fun b => u64 b[0] b[1] b[2] b[3] b[4] b[5] b[6] b[7]) u64_be64

/-- R9: `be16` is how a big-endian host stores. -/
theorem be16_eq_hostStore : be16 = hostStore true 2 := rfl

theorem be32_eq_hostStore : be32 = hostStore true 4 := rfl

theorem be64_eq_hostStore : be64 = hostStore true 8 := rfl

/-- R76: by halves or at once, `bswap64` assembles the eight bytes in the reverse order. -/
theorem bswap64_eq_u64 (v : BitVec 64) : bswap64 v =
    u64 (v.extractLsb' 0 8) (v.extractLsb' 8 8) (v.extractLsb' 16 8) (v.extractLsb' 24 8)
      (v.extractLsb' 32 8) (v.extractLsb' 40 8) (v.extractLsb' 48 8) (v.extractLsb' 56 8) := by
  simp [bswap64, bswap32, u64_eq_append, extractLsb'_extractLsb']

theorem toList_be16_bswap16 (v : BitVec 16) : (be16 (bswap16 v)).toList = (be16 v).toList.reverse :=
  congrArg Vector.toList (be16_u16 _ _)

theorem toList_be32_bswap32 (v : BitVec 32) : (be32 (bswap32 v)).toList = (be32 v).toList.reverse :=
  congrArg Vector.toList (be32_u32 _ _ _ _)

theorem toList_be64_bswap64 (v : BitVec 64) : (be64 (bswap64 v)).toList = (be64 v).toList.reverse := by
  rw [bswap64_eq_u64, be64_u64]
  rfl

/-- `hton_16`, which is `ntoh_16` too. -/
theorem converts_hton16 (c : Config) : Converts c.hostBigEndian be16 (hton16 c) :=
  .of_swap be16_injective toList_be16_bswap16 _

theorem converts_hton32 (c : Config) : Converts c.hostBigEndian be32 (hton32 c) :=
  .of_swap be32_injective toList_be32_bswap32 _

theorem converts_hton64 (c : Config) : Converts c.hostBigEndian be64 (hton64 c) :=
  .of_swap be64_injective toList_be64_bswap64 _

/-- Settles O24: each conversion, being its own inverse, is an involution. -/
theorem conversionsAreInvolutions : Obligations.ConversionsAreInvolutions := by
  intro c
  have inv16 := (converts_hton16 c).conv_conv
  have inv32 := (converts_hton32 c).conv_conv
  have inv64 := (converts_hton64 c).conv_conv
  exact ⟨fun v => ⟨inv16 v, inv16 v, inv16 v⟩, fun v => ⟨inv32 v, inv32 v, inv32 v⟩,
    fun v => ⟨inv64 v, inv64 v, inv64 v⟩, fun hc => ⟨(hc ▸ converts_hton16 c).conv_eq_self_iff,
      (hc ▸ converts_hton32 c).conv_eq_self_iff, (hc ▸ converts_hton64 c).conv_eq_self_iff⟩⟩

/-- Settles O25: a host's own layout of a value is the big-endian layout of its conversion. -/
theorem conversionsRelateStorage : Obligations.ConversionsRelateStorage := fun c =>
  ⟨(converts_hton16 c).hostStore_conv be16_eq_hostStore, (converts_hton32 c).hostStore_conv be32_eq_hostStore,
    (converts_hton64 c).hostStore_conv be64_eq_hostStore,
    (converts_hton16 c).eq_conv_of_hostStore_eq be16_eq_hostStore,
    (converts_hton32 c).eq_conv_of_hostStore_eq be32_eq_hostStore,
    (converts_hton64 c).eq_conv_of_hostStore_eq be64_eq_hostStore⟩

/-- R76: byte `k` of the reversal, read off the two layouts of `v`. -/
theorem extractLsb'_bswap64 (v : BitVec 64) (k : Nat) (hk : k < 8) :
    (bswap64 v).extractLsb' (8 * k) 8 = v.extractLsb' (8 * (7 - k)) 8 := by
  have hstore : hostStore false 8 (bswap64 v) = hostStore true 8 v :=
    Converts.hostStore_conv (.of_swap be64_injective toList_be64_bswap64 false) be64_eq_hostStore v
  have hbyte : (hostStore false 8 (bswap64 v))[k] = (hostStore true 8 v)[k] := by rw [hstore]
  simpa [hostStore, show 56 - 8 * k = 8 * (7 - k) by omega] using hbyte

/-- Settles O23: the halves are the model's definition, and its eight bytes come out reversed. -/
theorem halvesAlgorithmReversesBytes : Obligations.HalvesAlgorithmReversesBytes :=
  ⟨fun _ => rfl, extractLsb'_bswap64, by decide⟩

/-! ## The six commands -/

/-- R58: the operand of a conversion is read back from its packet. -/
theorem u16At_be16 (op : Byte) (v : BitVec 16) : u16At (op :: (be16 v).toList) 1 = v := u16_be16 v

theorem u32At_be32 (op : Byte) (v : BitVec 32) : u32At (op :: (be32 v).toList) 1 = v := u32_be32 v

theorem u64At_be64 (op : Byte) (v : BitVec 64) : u64At (op :: (be64 v).toList) 1 = v := u64_be64 v

theorem decode_hton16 (v : BitVec 16) : decode (0x10 :: (be16 v).toList) = .ok (.hton16 v) :=
  decode_of_assigned (n := 3) rfl (congrArg (some ∘ Instr.hton16) (u16At_be16 _ v)) rfl

theorem decode_hton32 (v : BitVec 32) : decode (0x11 :: (be32 v).toList) = .ok (.hton32 v) :=
  decode_of_assigned (n := 5) rfl (congrArg (some ∘ Instr.hton32) (u32At_be32 _ v)) rfl

theorem decode_hton64 (v : BitVec 64) : decode (0x12 :: (be64 v).toList) = .ok (.hton64 v) :=
  decode_of_assigned (n := 9) rfl (congrArg (some ∘ Instr.hton64) (u64At_be64 _ v)) rfl

theorem decode_ntoh16 (v : BitVec 16) : decode (0x14 :: (be16 v).toList) = .ok (.ntoh16 v) :=
  decode_of_assigned (n := 3) rfl (congrArg (some ∘ Instr.ntoh16) (u16At_be16 _ v)) rfl

theorem decode_ntoh32 (v : BitVec 32) : decode (0x15 :: (be32 v).toList) = .ok (.ntoh32 v) :=
  decode_of_assigned (n := 5) rfl (congrArg (some ∘ Instr.ntoh32) (u32At_be32 _ v)) rfl

theorem decode_ntoh64 (v : BitVec 64) : decode (0x16 :: (be64 v).toList) = .ok (.ntoh64 v) :=
  decode_of_assigned (n := 9) rfl (congrArg (some ∘ Instr.ntoh64) (u64At_be64 _ v)) rfl

/-- Settles O21: per width the packet, the one equation of the command, and the bytes of `hton_N`. -/
theorem hostToNetworkCommands : Obligations.HostToNetworkCommands :=
  ⟨fun v s => ⟨decode_hton16 v, _, exec_hton16 v s, (converts_hton16 s.cfg).onlyAnswers v⟩,
    fun v s => ⟨decode_hton32 v, _, exec_hton32 v s, (converts_hton32 s.cfg).onlyAnswers v⟩,
    fun v s => ⟨decode_hton64 v, _, exec_hton64 v s, (converts_hton64 s.cfg).onlyAnswers v⟩⟩

/-- Settles O22: as for the host-to-network commands, `ntoh_N` being `hton_N`. -/
theorem networkToHostCommands : Obligations.NetworkToHostCommands :=
  ⟨fun v s => ⟨decode_ntoh16 v, _, exec_ntoh16 v s, (converts_hton16 s.cfg).onlyAnswers v⟩,
    fun v s => ⟨decode_ntoh32 v, _, exec_ntoh32 v s, (converts_hton32 s.cfg).onlyAnswers v⟩,
    fun v s => ⟨decode_ntoh64 v, _, exec_ntoh64 v s, (converts_hton64 s.cfg).onlyAnswers v⟩⟩

/-! ## Widths (R79)

A swap exchanges the halves of its operand, so the zero upper half of a zero-extended value comes out below. -/

theorem bswap32_eq_append (v : BitVec 32) :
    bswap32 v = bswap16 (v.extractLsb' 0 16) ++ bswap16 (v.extractLsb' 16 16) := by
  simp [bswap32, bswap16, u32, extractLsb'_extractLsb']

/-- The halves of a zero-extended value. -/
theorem extractLsb'_zeroExtend_low {w u : Nat} (v : BitVec w) (h : w ≤ u) : (v.zeroExtend u).extractLsb' 0 w = v := by
  rw [BitVec.extractLsb'_setWidth_of_le (by omega)]
  exact BitVec.extractLsb'_eq_self

theorem extractLsb'_zeroExtend_high {w u : Nat} (v : BitVec w) (n : Nat) : (v.zeroExtend u).extractLsb' w n = 0 := by
  ext i hi
  simp

/-- A value above a zero half is its zero extension shifted up. -/
theorem append_zero_eq_shiftLeft {w : Nat} (x : BitVec w) (n : Nat) :
    x ++ (0 : BitVec n) = x.zeroExtend (w + n) <<< n := by
  rw [BitVec.append_def, BitVec.shiftLeftZeroExtend_eq]
  simp

theorem bswap32_zeroExtend (v : BitVec 16) :
    bswap32 (v.zeroExtend 32) = (bswap16 v).zeroExtend 32 <<< 16 := by
  rw [bswap32_eq_append, extractLsb'_zeroExtend_low v (by decide), extractLsb'_zeroExtend_high]
  exact append_zero_eq_shiftLeft (bswap16 v) 16

theorem bswap64_zeroExtend (v : BitVec 32) :
    bswap64 (v.zeroExtend 64) = (bswap32 v).zeroExtend 64 <<< 32 := by
  rw [bswap64, extractLsb'_zeroExtend_low v (by decide), extractLsb'_zeroExtend_high]
  exact append_zero_eq_shiftLeft (bswap32 v) 32

/-- A non-zero 16-bit value is not its own shift to the upper half. -/
theorem zeroExtend_shiftLeft_ne {x : BitVec 16} (hx : x ≠ 0) : x.zeroExtend 32 <<< 16 ≠ x.zeroExtend 32 := by
  bv_omega

/-- A swap, being an involution, sends no value but zero to zero. -/
theorem bswap16_ne_zero {v : BitVec 16} (hv : v ≠ 0) : bswap16 v ≠ 0 := by
  intro h
  have hswap : bswap16 (bswap16 v) = v :=
    Converts.conv_conv (.of_swap be16_injective toList_be16_bswap16 false) v
  exact hv (by rw [← hswap, h]; decide)

/-- Settles O26: on a little-endian host the conversions are the swaps. -/
theorem conversionsKeepTheirWidth : Obligations.ConversionsKeepTheirWidth := by
  intro c hc
  have h16 : hton16 c = bswap16 := by funext v; simp [hton16, hc]
  have h32 : hton32 c = bswap32 := by funext v; simp [hton32, hc]
  have h64 : hton64 c = bswap64 := by funext v; simp [hton64, hc]
  rw [h16, h32, h64]
  refine ⟨bswap32_zeroExtend, bswap64_zeroExtend, fun v hv => ?_, by decide⟩
  rw [bswap32_zeroExtend]
  exact zeroExtend_shiftLeft_ne (bswap16_ne_zero hv)

end Sys2Proof.Machine

/-! # The UDP frame template builder (42_udp_builder.md R81 to R92) -/

namespace Sys2Proof.Machine

open Sys2Proof.Claims

/-! ## Overwrites -/

section Overwrites

variable {n m m' : Nat} (t : Vector Byte n)

theorem getElem_patch_outside {a k : Nat} (b : Vector Byte m) (hk : k < n) (h : k < a ∨ a + m ≤ k) :
    (patch t a b)[k] = t[k] := by
  rw [getElem_patch, dif_neg (by omega)]

/-- Overwrites of disjoint ranges commute. -/
theorem patch_comm {a a' : Nat} (b : Vector Byte m) (b' : Vector Byte m') (h : a + m ≤ a' ∨ a' + m' ≤ a) :
    patch (patch t a b) a' b' = patch (patch t a' b') a b := by
  refine Vector.ext fun k hk => ?_
  by_cases hb : a ≤ k ∧ k - a < m
  · have hout : ¬ (a' ≤ k ∧ k - a' < m') := by omega
    simp [hb, hout]
  · simp [hb]

/-- The last overwrite of a range wins. -/
theorem patch_patch_same (a : Nat) (b b' : Vector Byte m) : patch (patch t a b) a b' = patch t a b' := by
  refine Vector.ext fun k hk => ?_
  simp only [getElem_patch]
  split_ifs <;> rfl

/-- Overwrites of adjacent ranges are one. -/
theorem patch_append (a : Nat) (b : Vector Byte m) (b' : Vector Byte m') :
    patch t a (b ++ b') = patch (patch t a b) (a + m) b' := by
  refine Vector.ext fun k hk => ?_
  by_cases hb : a ≤ k ∧ k - a < m
  · have hall : k - a < m + m' := by omega
    have hout : ¬ a + m ≤ k := by omega
    simp [hb, hall, hout]
  · have hrange : a ≤ k ∧ k - a < m + m' ↔ a + m ≤ k ∧ k - (a + m) < m' := by omega
    simp only [getElem_patch, hrange, hb, dite_false]
    split_ifs with hb'
    · simp [show ¬ k - a < m by omega, Vector.getElem_append, Nat.sub_sub]
    · rfl

end Overwrites

/-! ## The three fields

R90: a setter overwrites the bytes of its field, which are one range of the template. -/

/-- R90: the first offset of a field. -/
def fieldStart : Field → Nat
  | .mac => 0
  | .ip => 26
  | .port => 34

/-- R90: the number of bytes of a field. -/
def fieldLength : Field → Nat
  | .mac => 12
  | .ip => 8
  | .port => 4

theorem inField_iff (f : Field) (k : Nat) : inField f k ↔ fieldStart f ≤ k ∧ k < fieldStart f + fieldLength f := by
  cases f <;> simp [inField, fieldStart, fieldLength]

theorem fields_disjoint {f g : Field} (h : f ≠ g) :
    fieldStart f + fieldLength f ≤ fieldStart g ∨ fieldStart g + fieldLength g ≤ fieldStart f := by
  cases f <;> cases g <;> simp [fieldStart, fieldLength] at h ⊢

/-- A template with new bytes in one field. -/
def setField {n : Nat} (t : Vector Byte n) (f : Field) (b : Vector Byte (fieldLength f)) : Vector Byte n :=
  patch t (fieldStart f) b

section Fields

variable {n : Nat} (t : Vector Byte n)

theorem getElem_setField_outside {f : Field} (b : Vector Byte (fieldLength f)) {k : Nat} (hk : k < n)
    (h : ¬ inField f k) : (setField t f b)[k] = t[k] :=
  getElem_patch_outside t b hk (by rw [inField_iff] at h; omega)

theorem setField_comm {f g : Field} (h : f ≠ g) (b : Vector Byte (fieldLength f)) (c : Vector Byte (fieldLength g)) :
    setField (setField t f b) g c = setField (setField t g c) f b :=
  patch_comm t b c (fields_disjoint h)

theorem setField_setField {f : Field} (b c : Vector Byte (fieldLength f)) :
    setField (setField t f b) f c = setField t f c :=
  patch_patch_same t _ b c

theorem patch_mac_eq_setField (src dst : MacAddr) : patch (patch t 6 src) 0 dst = setField t .mac (dst ++ src) :=
  (patch_comm t src dst (.inr (by decide))).trans (patch_append t 0 dst src).symm

theorem patch_ip_eq_setField (src dst : IpAddr) : patch (patch t 26 src) 30 dst = setField t .ip (src ++ dst) :=
  (patch_append t 26 src dst).symm

theorem patch_port_eq_setField (sport dport : BitVec 16) :
    patch (patch t 34 (be16 sport)) 36 (be16 dport) = setField t .port (be16 sport ++ be16 dport) :=
  (patch_append t 34 (be16 sport) (be16 dport)).symm

end Fields

/-! ## The construct and the setters -/

section Setters

variable (s : State)

/-- The frame of a command that answers OK with a new `TU`. -/
theorem respond_setTu_onlyTu {x : TemplateU} {touched : Nat → Prop}
    (h : ∀ (k : Nat) (hk : k < 42), ¬ touched k → x[k] = s.tu[k]) : OnlyTu touched s ((s.setTu x).respond []) :=
  ⟨⟨rfl, rfl, rfl⟩, h, rfl, sameBuf_of_buf_eq rfl, rfl⟩

theorem setField_onlyTu (f : Field) (b : Vector Byte (fieldLength f)) :
    OnlyTu (inField f) s ((s.setTu (setField s.tu f b)).respond []) :=
  respond_setTu_onlyTu s fun _ hk hout => getElem_setField_outside s.tu b hk hout

/-- R82 to R85: what a setter writes to its field depends on its operands only. -/
theorem exec_udpSetter {i : Instr} {f : Field} (h : udpField i = some f) :
    ∃ b : Vector Byte (fieldLength f), ∀ s, exec i s = .next ((s.setTu (setField s.tu f b)).respond []) := by
  cases i with
  | usmac src dst =>
    cases h
    exact ⟨dst ++ src, fun s => by rw [exec_usmac, patch_mac_eq_setField]⟩
  | usmacb src =>
    cases h
    exact ⟨broadcastMac ++ src, fun s => by rw [exec_usmacb, patch_mac_eq_setField]⟩
  | usip src dst =>
    cases h
    exact ⟨src ++ dst, fun s => by rw [exec_usip, patch_ip_eq_setField]⟩
  | usport sport dport =>
    cases h
    exact ⟨be16 sport ++ be16 dport, fun s => by rw [exec_usport, patch_port_eq_setField]⟩
  | _ => cases h

theorem udpSetter_tu {i : Instr} {f : Field} (h : udpField i = some f) :
    ∃ b : Vector Byte (fieldLength f), ∀ s t, exec i s = .next t → t.tu = setField s.tu f b := by
  obtain ⟨b, hb⟩ := exec_udpSetter h
  refine ⟨b, fun s t ht => ?_⟩
  cases (hb s).symm.trans ht
  rfl

theorem decode_ucons : decode [0x20] = .ok .ucons := rfl

/-- What `UCONS` leaves in `TU`, and that its parameters stay. -/
theorem ucons_next {s t : State} (h : exec .ucons s = .next t) : t.cfg = s.cfg ∧ t.tu = defaultU s.cfg := by
  cases (exec_ucons s).symm.trans h
  exact ⟨rfl, rfl⟩

theorem decode_usmac (src dst : MacAddr) : decode (0x21 :: (src.toList ++ dst.toList)) = .ok (.usmac src dst) :=
  decode_of_assigned (n := 13) rfl
    (congrArg₂ (fun a b => some (Instr.usmac a b)) (bytesAt_first src _ _) (bytesAt_second src dst _)) (by simp)

theorem decode_usmacb (src : MacAddr) : decode (0x22 :: src.toList) = .ok (.usmacb src) :=
  decode_of_assigned (n := 7) rfl (congrArg (some ∘ Instr.usmacb) (bytesAt_only src _)) (by simp)

theorem decode_usip (src dst : IpAddr) : decode (0x23 :: (src.toList ++ dst.toList)) = .ok (.usip src dst) :=
  decode_of_assigned (n := 9) rfl
    (congrArg₂ (fun a b => some (Instr.usip a b)) (bytesAt_first src _ _) (bytesAt_second src dst _)) (by simp)

theorem decode_usport (sport dport : BitVec 16) :
    decode [0x24, hi8 sport, lo8 sport, hi8 dport, lo8 dport] = .ok (.usport sport dport) :=
  decode_of_assigned (n := 5) rfl
    (congrArg₂ (fun a b => some (Instr.usport a b)) (u16_be16 sport) (u16_be16 dport)) rfl

/-- R83: a destination that is left out is broadcast. -/
theorem exec_usmacb_eq_usmac (src : MacAddr) : exec (.usmacb src) s = exec (.usmac src broadcastMac) s := rfl

theorem broadcastMac_eq : broadcastMac = #v[0xFF, 0xFF, 0xFF, 0xFF, 0xFF, 0xFF] := by decide

theorem usmac_writes (src dst : MacAddr) : ∃ t, exec (.usmac src dst) s = .next t ∧
    (∀ (k : Nat) (hk : k < 6), t.tu[6 + k] = src[k] ∧ t.tu[k] = dst[k]) ∧ OnlyTu (fun k => k < 12) s t := by
  refine ⟨_, exec_usmac src dst s, fun k hk => ⟨by simp [hk], by simp [hk]⟩, ?_⟩
  rw [patch_mac_eq_setField]
  exact setField_onlyTu s .mac _

end Setters

/-- Settles O28: the packet's two operands, and the MAC field overwritten with them. -/
theorem usmacWritesBothAddresses : Obligations.UsmacWritesBothAddresses :=
  fun src dst s => ⟨decode_usmac src dst, usmac_writes s src dst⟩

/-- Settles O29: `USMACB` is `USMAC` with the broadcast address, so it writes what that writes. -/
theorem usmacbWritesBroadcast : Obligations.UsmacbWritesBroadcast := by
  intro src s
  obtain ⟨t, ht, hbytes, hframe⟩ := usmac_writes s src broadcastMac
  refine ⟨decode_usmacb src, broadcastMac_eq ▸ exec_usmacb_eq_usmac s src, t, ht,
    fun k hk => ⟨(hbytes k hk).1, ?_⟩, hframe⟩
  rw [(hbytes k hk).2, broadcastMac, Vector.getElem_replicate]

/-- Settles O30: the packet's two operands, and the IPv4 address field overwritten with them. -/
theorem usipWritesBothAddresses : Obligations.UsipWritesBothAddresses := by
  refine fun src dst s => ⟨decode_usip src dst, _, exec_usip src dst s, fun k hk => ⟨?_, ?_⟩, ?_⟩
  · simp [hk, show ¬ 30 ≤ 26 + k by omega]
  · simp [hk]
  · rw [patch_ip_eq_setField]
    exact setField_onlyTu s .ip _

/-- Settles O31: the packet's two operands, and the port field overwritten with their big-endian layouts. -/
theorem usportWritesBothPorts : Obligations.UsportWritesBothPorts := by
  refine fun sport dport s => ⟨decode_usport sport dport, _, exec_usport sport dport s, ?_, ?_, ?_, ?_, ?_⟩
  · simp
  · simp
  · simp
  · simp
  · rw [patch_port_eq_setField]
    exact setField_onlyTu s .port _

/-- Settles O38: each setter overwrites one field, and the fields are disjoint ranges. -/
theorem udpSettersCommute : Obligations.UdpSettersCommute := by
  refine ⟨fun i f s hi => ?_, fun i j f g s t u t' u' hi hj hne ht hu ht' hu' => ?_,
    fun i j f s t u t' hi hj ht hu ht' => ?_⟩
  · obtain ⟨b, hb⟩ := exec_udpSetter hi
    exact ⟨_, hb s, setField_onlyTu s f b⟩
  · obtain ⟨b, hb⟩ := udpSetter_tu hi
    obtain ⟨c, hc⟩ := udpSetter_tu hj
    rw [hc t u hu, hb s t ht, hb t' u' hu', hc s t' ht', setField_comm _ hne]
  · obtain ⟨b, hb⟩ := udpSetter_tu hi
    obtain ⟨c, hc⟩ := udpSetter_tu hj
    rw [hc t u hu, hb s t ht, hc s t' ht', setField_setField]

/-- Settles O27: `UCONS` loads `DEFAULT_U` of the parameters, which it leaves as they are. -/
theorem uconsLoadsDefaults : Obligations.UconsLoadsDefaults := by
  refine ⟨decode_ucons,
    fun s => ⟨_, exec_ucons s, toList_defaultU s.cfg, respond_setTu_onlyTu s fun _ _ h => absurd trivial h⟩,
    fun s t hs ht => (ucons_next ht).2.trans hs.symm, fun s t u ht hu => ?_, toList_defaultU⟩
  rw [(ucons_next hu).2, (ucons_next ht).1, (ucons_next ht).2]

/-! ## Filling in the checksum

R87 and R99: once its lengths are in place, a header image gets the checksum of its bytes 14 .. 33 at 24, 25. -/

/-- Writing the field leaves every byte but bytes 10 and 11. -/
theorem getElem_withField (h : IpHeader) (a b : Byte) (k : Nat) (hk : k < 20) :
    (withField h a b)[k] = if k = 11 then b else if k = 10 then a else h[k] := by
  simp [withField, Vector.getElem_set, eq_comm]

/-- R68: headers that agree outside the checksum field have one checksum. -/
theorem cksum20_congr {h h' : IpHeader} (heq : ∀ (k : Nat) (hk : k < 20), k ≠ 10 → k ≠ 11 → h[k] = h'[k]) :
    cksum20 h = cksum20 h' := by
  have hfield : h = withField h' h[10] h[11] := Vector.ext fun k hk => by
    rw [getElem_withField]
    split_ifs with h11 h10
    · simp only [h11]
    · simp only [h10]
    · exact heq k hk h10 h11
  rw [hfield]
  exact checksumIgnoresItsField h' _ _

section Checksum

variable {n : Nat} (hn : 14 + 20 ≤ n) (t : Vector Byte n)

/-- R87, R99: the IPv4 header's checksum in its place. -/
def fillChecksum : Vector Byte n := patch t 24 (be16 (cksum20 (slice t 14 20 hn)))

theorem getElem_fillChecksum_outside {k : Nat} (hk : k < n) (h : k < 24 ∨ 26 ≤ k) : (fillChecksum hn t)[k] = t[k] :=
  getElem_patch_outside t _ hk h

theorem slice_fillChecksum : slice (fillChecksum hn t) 14 20 hn =
    withField (slice t 14 20 hn) (hi8 (cksum20 (slice t 14 20 hn))) (lo8 (cksum20 (slice t 14 20 hn))) :=
  Vector.ext fun k hk => by
    rw [getElem_withField, getElem_slice]
    split_ifs with h11 h10
    · simp [fillChecksum, h11]
    · simp [fillChecksum, h10]
    · rw [getElem_fillChecksum_outside _ _ _ (by omega), getElem_slice]

/-- R91, R103: an image with its checksum in place verifies. -/
theorem selfVerifies_fillChecksum : SelfVerifies (slice (fillChecksum hn t) 14 20 hn) := by
  rw [slice_fillChecksum]
  exact (checksumSelfVerifies _).1

/-- R87, R99: the bytes at 24, 25 are the checksum of any header that agrees with the image outside its field. -/
theorem fillChecksum_checksum (h : IpHeader)
    (heq : ∀ (k : Nat) (hk : k < 20), k ≠ 10 → k ≠ 11 → h[k] = (fillChecksum hn t)[14 + k]) :
    (fillChecksum hn t)[24] = hi8 (cksum20 h) ∧ (fillChecksum hn t)[25] = lo8 (cksum20 h) := by
  have hsum : cksum20 h = cksum20 (slice t 14 20 hn) := cksum20_congr fun k hk h10 h11 => by
    rw [heq k hk h10 h11, getElem_fillChecksum_outside _ _ _ (by omega), getElem_slice]
  rw [hsum]
  simp [fillChecksum]

end Checksum

/-! ## The header image -/

section Image

variable (t : TemplateU) (plen : BitVec 16)

/-- R87: the template with both lengths in place. -/
def withLengthsU : TemplateU := patch (patch t 16 (be16 (28 + plen))) 38 (be16 (8 + plen))

theorem imageU_eq : imageU t plen = fillChecksum (by decide) (withLengthsU t plen) := rfl

/-- R91: the IPv4 header of an image verifies. -/
theorem selfVerifies_imageU : SelfVerifies (slice (imageU t plen) 14 20 (by decide)) := by
  rw [imageU_eq]
  exact selfVerifies_fillChecksum _ _

theorem imageU_checksum (h : IpHeader)
    (heq : ∀ (k : Nat) (hk : k < 20), k ≠ 10 → k ≠ 11 → h[k] = (imageU t plen)[14 + k]) :
    (imageU t plen)[24] = hi8 (cksum20 h) ∧ (imageU t plen)[25] = lo8 (cksum20 h) := by
  simp only [imageU_eq] at heq ⊢
  exact fillChecksum_checksum _ _ h heq

/-- R87: the image leaves every byte of the template outside its three fields. -/
theorem getElem_imageU_outside {k : Nat} (hk : k < 42) (h : k ∉ [16, 17, 24, 25, 38, 39]) :
    (imageU t plen)[k] = t[k] := by
  have hfar : (k < 16 ∨ 18 ≤ k) ∧ (k < 24 ∨ 26 ≤ k) ∧ (k < 38 ∨ 40 ≤ k) := by
    simp only [List.mem_cons, List.not_mem_nil, or_false] at h
    omega
  obtain ⟨h16, h24, h38⟩ := hfar
  rw [imageU, getElem_patch_outside _ _ hk h24, getElem_patch_outside _ _ hk h38, getElem_patch_outside _ _ hk h16]

/-- R92: so the image holds what the template holds there. -/
theorem holdsBytes_imageU {l : List (Nat × Byte)} (h : HoldsBytes t l)
    (hl : ∀ p ∈ l, p.1 ∉ [16, 17, 24, 25, 38, 39]) : HoldsBytes (imageU t plen) l := by
  intro p hp
  obtain ⟨hk, hv⟩ := Vector.getElem?_eq_some_iff.mp (h p hp)
  rw [Vector.getElem?_eq_getElem hk, getElem_imageU_outside t plen hk (hl p hp), hv]

end Image

/-- Settles O33: the lengths and the checksum are overwrites of the template; the rest is outside all three. -/
theorem udpImageBytes : Obligations.UdpImageBytes := by
  intro tu plen
  refine ⟨?_, ?_, ?_, ?_, imageU_checksum tu plen, fun k hk => getElem_imageU_outside tu plen hk⟩
  all_goals simp [imageU]

/-- Settles O34: both length fields are sums modulo 2^16, and the checksum is of the wrapped header. -/
theorem udpLengthsAndContractRange : Obligations.UdpLengthsAndContractRange := by
  intro tu plen
  obtain ⟨h16, h17, h38, h39, -⟩ := udpImageBytes tu plen
  have hlt := plen.isLt
  have htotal : (u16 (imageU tu plen)[16] (imageU tu plen)[17]).toNat = (28 + plen.toNat) % 65536 := by
    rw [h16, h17, u16_be16, BitVec.toNat_add]
    rfl
  have hudp : (u16 (imageU tu plen)[38] (imageU tu plen)[39]).toNat = (8 + plen.toNat) % 65536 := by
    rw [h38, h39, u16_be16, BitVec.toNat_add]
    rfl
  dsimp only
  rw [htotal, hudp]
  exact ⟨by omega, by omega, by omega, selfVerifies_imageU tu plen⟩

/-! ## Stamps

R86 and R98: what a stamp of any image that completes has left, and that its image can be read back. -/

section Stamps

variable {n : Nat} {dest : Addr} {image : Vector Byte n} {s t : State}

theorem Backed.stamp_completes (h : Backed s.cfg dest n) : ∃ t, stamp dest image.toList s = .next t :=
  ⟨_, stamp_of_admits fun k hk => h k (by simpa using hk)⟩

theorem stamp_onlyStamps (h : stamp dest image.toList s = .next t) : OnlyStamps dest n s t := by
  obtain ⟨hcfg, htu, htr, hbuf, hcmd, hrsp, hdraws⟩ := stamp_next_fields h
  refine ⟨⟨hcfg, hcmd, hdraws⟩, htu, htr, fun a ha => ?_, hrsp⟩
  rw [readBuf, hbuf]
  exact read_imageWrites_other _ dest _ (by simpa using ha)

theorem readBuf_stamp (hn : n ≤ 2 ^ 32) (h : stamp dest image.toList s = .next t) {k : Nat} (hk : k < n) :
    readBuf t (dest + BitVec.ofNat 32 k) = some image[k] := by
  obtain ⟨-, -, -, hbuf, -⟩ := stamp_next_fields h
  rw [readBuf, hbuf, read_imageWrites _ dest (by simpa using hn) k (by simpa using hk), Vector.getElem_toList]

theorem readBuf_stamp_holdsBytes (hn : n ≤ 2 ^ 32) {l : List (Nat × Byte)} (hl : HoldsBytes image l)
    (h : stamp dest image.toList s = .next t) : ∀ x ∈ l, readBuf t (dest + BitVec.ofNat 32 x.1) = some x.2 := by
  intro x hx
  obtain ⟨hk, hv⟩ := Vector.getElem?_eq_some_iff.mp (hl x hx)
  rw [readBuf_stamp hn h hk, hv]

/-- The IPv4 header read back after a stamp is the image's. -/
theorem header_eq_of_stamp (hn : n ≤ 2 ^ 32) (hlen : 14 + 20 ≤ n) (h : stamp dest image.toList s = .next t)
    {header : IpHeader}
    (hread : ∀ (k : Nat) (hk : k < 20), readBuf t (dest + BitVec.ofNat 32 (14 + k)) = some header[k]) :
    header = slice image 14 20 hlen :=
  Vector.ext fun k hk => by
    rw [getElem_slice]
    exact Option.some.inj ((hread k hk).symm.trans (readBuf_stamp hn h (by omega)))

/-- R88, R100: a stamp repeated at once leaves every byte of `BUF`. -/
theorem stamp_stamp_sameBuf {u : State} (hn : n ≤ 2 ^ 32) (ht : stamp dest image.toList s = .next t)
    (hu : stamp dest image.toList t = .next u) : SameBuf t u := by
  intro a
  by_cases ha : ∃ k < n, a = dest + BitVec.ofNat 32 k
  · obtain ⟨k, hk, rfl⟩ := ha
    rw [readBuf_stamp hn hu hk, readBuf_stamp hn ht hk]
  · push Not at ha
    exact (stamp_onlyStamps hu).buf a ha

end Stamps

/-! ## Canonical contents of `BUF` -/

theorem Memory.read_eq_none {m : Memory} {a : Nat} (h : ∀ c ∈ m, a ≠ c.1) : Memory.read m a = none := by
  induction m with
  | nil => rfl
  | cons c m ih =>
    rw [Memory.read, if_neg (h c List.mem_cons_self)]
    exact ih fun d hd => h d (List.mem_cons_of_mem c hd)

/-- Canonical contents are determined by the bytes at the `BUF` addresses. -/
theorem Memory.eq_of_read_addr {m m' : Memory} (h : Memory.wf m) (h' : Memory.wf m')
    (hr : ∀ a : Addr, Memory.read m a.toNat = Memory.read m' a.toNat) : m = m' := by
  refine Memory.eq_of_read h.1 h'.1 fun a => ?_
  by_cases ha : a < 2 ^ 32
  · have hra := hr (BitVec.ofNat 32 a)
    rwa [BitVec.toNat_ofNat, Nat.mod_eq_of_lt ha] at hra
  · have beyond : ∀ {l : Memory}, Memory.wf l → Memory.read l a = none := fun hl =>
      Memory.read_eq_none fun c hc => by have := hl.2 c hc; omega
    rw [beyond h, beyond h']

theorem stamp_buf_wf {dest : Addr} {image : List Byte} {s t : State} (hs : Memory.wf s.buf)
    (h : stamp dest image s = .next t) : Memory.wf t.buf := by
  obtain ⟨-, -, -, hbuf, -⟩ := stamp_next_fields h
  rw [hbuf]
  exact Memory.wf_writeAll hs _

/-! ## `UWRHDR` -/

theorem decode_uwrhdr (dest : Addr) (plen : BitVec 16) :
    decode (0x25 :: ((be32 dest).toList ++ (be16 plen).toList)) = .ok (.uwrhdr dest plen) :=
  decode_of_assigned (n := 7) rfl (congrArg₂ (fun a b => some (Instr.uwrhdr a b)) (u32_be32 dest) (u16_be16 plen)) rfl

section Uwrhdr

variable {dest : Addr} {plen : BitVec 16} {s t : State}

theorem uwrhdr_onlyStamps (h : exec (.uwrhdr dest plen) s = .next t) : OnlyStamps dest 42 s t :=
  stamp_onlyStamps ((exec_uwrhdr dest plen s).symm.trans h)

theorem readBuf_uwrhdr (h : exec (.uwrhdr dest plen) s = .next t) {k : Nat} (hk : k < 42) :
    readBuf t (dest + BitVec.ofNat 32 k) = some (imageU s.tu plen)[k] :=
  readBuf_stamp (by decide) ((exec_uwrhdr dest plen s).symm.trans h) hk

theorem Backed.uwrhdr_completes (h : Backed s.cfg dest 42) (plen : BitVec 16) :
    ∃ t, exec (.uwrhdr dest plen) s = .next t :=
  h.stamp_completes.imp fun _ => (exec_uwrhdr dest plen s).trans

end Uwrhdr

/-- Settles O32: the stamp's writes, of which the image's bytes are read back. -/
theorem uwrhdrStampsImage : Obligations.UwrhdrStampsImage := by
  intro dest plen s hbacked
  obtain ⟨t, ht⟩ := hbacked.uwrhdr_completes plen
  exact ⟨decode_uwrhdr dest plen, t, ht, fun _ hk => readBuf_uwrhdr ht hk, uwrhdr_onlyStamps ht⟩

/-- The IPv4 address of V-U8. -/
def allOnesIp : IpAddr := Vector.replicate 4 0xFF

/-- V-U8: a stamp whose checksum is zero. -/
theorem exists_stamped_zero_checksum : ∃ c src dst plen t u, exec (.usip src dst) (State.resetOf c) = .next t ∧
    exec (.uwrhdr 0 plen) t = .next u ∧ readBuf u 24 = some 0x00 ∧ readBuf u 25 = some 0x00 := by
  obtain ⟨t, ht, hcfg, htu⟩ : ∃ t, exec (.usip allOnesIp allOnesIp) (State.resetOf Config.default) = .next t ∧
      t.cfg = Config.default ∧ t.tu = patch (patch (defaultU Config.default) 26 allOnesIp) 30 allOnesIp :=
    ⟨_, exec_usip allOnesIp allOnesIp _, rfl, rfl⟩
  have hbacked : Backed t.cfg 0 42 := by
    rw [hcfg, Backed]
    decide
  obtain ⟨u, hu⟩ := hbacked.uwrhdr_completes 15058
  have hread := fun (k : Nat) (hk : k < 42) => readBuf_uwrhdr hu hk
  rw [htu] at hread
  exact ⟨_, _, _, _, t, u, ht, hu, (hread 24 (by decide)).trans (by decide), (hread 25 (by decide)).trans (by decide)⟩

/-- Settles O35: the header read back is the image's own, which verifies; V-U8 stamps a zero checksum. -/
theorem stampedUdpHeaderVerifies : Obligations.StampedUdpHeaderVerifies := by
  refine ⟨fun dest plen s t ht header hread => ?_, exists_stamped_zero_checksum⟩
  rw [exec_uwrhdr] at ht
  rw [header_eq_of_stamp (by decide) (by decide) ht hread]
  exact selfVerifies_imageU s.tu plen

/-- Settles O36: the fixed bytes of the template are outside the three fields the image fills in. -/
theorem stampedUdpHeaderFixedContent : Obligations.StampedUdpHeaderFixedContent := by
  intro dest plen s t inv ht
  have himage : HoldsBytes (imageU s.tu plen) (fixedBytes s.cfg) :=
    holdsBytes_imageU s.tu plen inv.tuFixed (by simp [fixedBytes])
  exact readBuf_stamp_holdsBytes (by decide) himage ((exec_uwrhdr dest plen s).symm.trans ht)

/-- Settles O37: the image depends on the template and the length only, and a stamp leaves the template alone. -/
theorem udpStampIsIdempotent : Obligations.UdpStampIsIdempotent := by
  refine ⟨fun d d' plen s t s' u ht htu hu k hk => ?_, fun d plen s t u hwf ht hu => ?_⟩
  · rw [readBuf_uwrhdr hu hk, readBuf_uwrhdr ht hk, htu, (uwrhdr_onlyStamps ht).tu]
  · have htu := (uwrhdr_onlyStamps ht).tu
    rw [exec_uwrhdr] at ht hu
    rw [htu] at hu
    have hwf' := stamp_buf_wf hwf ht
    exact ⟨(stamp_onlyStamps hu).tu.trans htu,
      Memory.eq_of_read_addr (stamp_buf_wf hwf' hu) hwf' (stamp_stamp_sameBuf (by decide) ht hu)⟩

end Sys2Proof.Machine

/-! # The RDMX frame template builder (43_rdmx_builder.md R93 to R104) -/

namespace Sys2Proof.Machine

open Sys2Proof.Claims

/-! ## The construct and the setters -/

section Setters

variable (s : State)

/-- The frame of a command that answers OK with a new `TR`. -/
theorem respond_setTr_onlyTr {x : TemplateR} {touched : Nat → Prop}
    (h : ∀ (k : Nat) (hk : k < 64), ¬ touched k → x[k] = s.tr[k]) : OnlyTr touched s ((s.setTr x).respond []) :=
  ⟨⟨rfl, rfl, rfl⟩, h, rfl, sameBuf_of_buf_eq rfl, rfl⟩

theorem setField_onlyTr (f : Field) (b : Vector Byte (fieldLength f)) :
    OnlyTr (inField f) s ((s.setTr (setField s.tr f b)).respond []) :=
  respond_setTr_onlyTr s fun _ hk hout => getElem_setField_outside s.tr b hk hout

/-- R94 to R97: what a setter writes to its field depends on its operands and, for `RSPORT`, on the constant
destination port among the parameters. -/
theorem exec_rdmxSetter {i : Instr} {f : Field} (h : rdmxField i = some f) :
    ∃ b : Config → Vector Byte (fieldLength f),
      ∀ s, exec i s = .next ((s.setTr (setField s.tr f (b s.cfg))).respond []) := by
  cases i with
  | rsmac src dst =>
    cases h
    exact ⟨fun _ => dst ++ src, fun s => by rw [exec_rsmac, patch_mac_eq_setField]⟩
  | rsmacb src =>
    cases h
    exact ⟨fun _ => broadcastMac ++ src, fun s => by rw [exec_rsmacb, patch_mac_eq_setField]⟩
  | rsip src dst =>
    cases h
    exact ⟨fun _ => src ++ dst, fun s => by rw [exec_rsip, patch_ip_eq_setField]⟩
  | rsport sport =>
    cases h
    exact ⟨fun c => be16 sport ++ be16 c.rdmxDstPort, fun s => by rw [exec_rsport, patch_port_eq_setField]⟩
  | _ => cases h

theorem rdmxSetter_next {i : Instr} {f : Field} (h : rdmxField i = some f) :
    ∃ b : Config → Vector Byte (fieldLength f),
      ∀ s t, exec i s = .next t → t.cfg = s.cfg ∧ t.tr = setField s.tr f (b s.cfg) := by
  obtain ⟨b, hb⟩ := exec_rdmxSetter h
  refine ⟨b, fun s t ht => ?_⟩
  rw [← Host.Outcome.next.inj ((hb s).symm.trans ht)]
  simp

theorem decode_rcons : decode [0x30] = .ok .rcons := rfl

/-- What `RCONS` leaves in `TR`, and that its parameters stay. -/
theorem rcons_next {s t : State} (h : exec .rcons s = .next t) : t.cfg = s.cfg ∧ t.tr = defaultR s.cfg := by
  cases (exec_rcons s).symm.trans h
  exact ⟨rfl, rfl⟩

theorem decode_rsmac (src dst : MacAddr) : decode (0x31 :: (src.toList ++ dst.toList)) = .ok (.rsmac src dst) :=
  decode_of_assigned (n := 13) rfl
    (congrArg₂ (fun a b => some (Instr.rsmac a b)) (bytesAt_first src _ _) (bytesAt_second src dst _)) (by simp)

theorem decode_rsmacb (src : MacAddr) : decode (0x32 :: src.toList) = .ok (.rsmacb src) :=
  decode_of_assigned (n := 7) rfl (congrArg (some ∘ Instr.rsmacb) (bytesAt_only src _)) (by simp)

theorem decode_rsip (src dst : IpAddr) : decode (0x33 :: (src.toList ++ dst.toList)) = .ok (.rsip src dst) :=
  decode_of_assigned (n := 9) rfl
    (congrArg₂ (fun a b => some (Instr.rsip a b)) (bytesAt_first src _ _) (bytesAt_second src dst _)) (by simp)

theorem decode_rsport (sport : BitVec 16) : decode [0x34, hi8 sport, lo8 sport] = .ok (.rsport sport) :=
  decode_of_assigned (n := 3) rfl (congrArg (some ∘ Instr.rsport) (u16_be16 sport)) rfl

/-- R95: a destination that is left out is broadcast. -/
theorem exec_rsmacb_eq_rsmac (src : MacAddr) : exec (.rsmacb src) s = exec (.rsmac src broadcastMac) s := rfl

theorem rsmac_writes (src dst : MacAddr) : ∃ t, exec (.rsmac src dst) s = .next t ∧
    (∀ (k : Nat) (hk : k < 6), t.tr[6 + k] = src[k] ∧ t.tr[k] = dst[k]) ∧ OnlyTr (fun k => k < 12) s t := by
  refine ⟨_, exec_rsmac src dst s, fun k hk => ⟨by simp [hk], by simp [hk]⟩, ?_⟩
  rw [patch_mac_eq_setField]
  exact setField_onlyTr s .mac _

end Setters

/-- Settles O40: the packet's two operands, and the MAC field overwritten with them. -/
theorem rsmacWritesBothAddresses : Obligations.RsmacWritesBothAddresses :=
  fun src dst s => ⟨decode_rsmac src dst, rsmac_writes s src dst⟩

/-- Settles O41: `RSMACB` is `RSMAC` with the broadcast address, so it writes what that writes. -/
theorem rsmacbWritesBroadcast : Obligations.RsmacbWritesBroadcast := by
  intro src s
  obtain ⟨t, ht, hbytes, hframe⟩ := rsmac_writes s src broadcastMac
  refine ⟨decode_rsmacb src, t, (exec_rsmacb_eq_rsmac s src).trans ht, fun k hk => ⟨(hbytes k hk).1, ?_⟩, hframe⟩
  rw [(hbytes k hk).2, broadcastMac, Vector.getElem_replicate]

/-- Settles O42: the packet's two operands, and the IPv4 address field overwritten with them. -/
theorem rsipWritesBothAddresses : Obligations.RsipWritesBothAddresses := by
  refine fun src dst s => ⟨decode_rsip src dst, _, exec_rsip src dst s, fun k hk => ⟨?_, ?_⟩, ?_⟩
  · simp [hk, show ¬ 30 ≤ 26 + k by omega]
  · simp [hk]
  · rw [patch_ip_eq_setField]
    exact setField_onlyTr s .ip _

/-- Settles O43: the port field overwritten with the big-endian layouts of the operand and of `RDMX_DST_PORT`. -/
theorem rsportWritesSourcePort : Obligations.RsportWritesSourcePort := by
  refine fun sport s => ⟨decode_rsport sport, _, exec_rsport sport s, ?_, ?_, ?_, ?_, ?_⟩
  · simp
  · simp
  · simp
  · simp
  · rw [patch_port_eq_setField]
    exact setField_onlyTr s .port _

/-- Settles O39: `RCONS` loads `DEFAULT_R` of the parameters, which it leaves as they are. -/
theorem rconsLoadsDefaults : Obligations.RconsLoadsDefaults := by
  refine ⟨decode_rcons,
    fun s => ⟨_, exec_rcons s, toList_defaultR s.cfg, respond_setTr_onlyTr s fun _ _ h => absurd trivial h⟩,
    fun s t hs ht => (rcons_next ht).2.trans hs.symm, fun s t u ht hu => ?_, toList_defaultR⟩
  rw [(rcons_next hu).2, (rcons_next ht).1, (rcons_next ht).2]

/-! ## The header image -/

/-- R9: byte `k` of `be64`, the most significant first. -/
theorem getElem_be64 (v : BitVec 64) (k : Nat) (hk : k < 8) : (be64 v)[k] = v.extractLsb' (56 - 8 * k) 8 := by
  simp [be64_eq_hostStore, hostStore]

section Image

variable (t : TemplateR) (plen : BitVec 16) (target : BitVec 64)

/-- R99: the template with both lengths and the target address in place. -/
def withLengthsAndTarget : TemplateR :=
  patch (patch (patch t 16 (be16 (50 + plen))) 38 (be16 (30 + plen))) 44 (be64 target)

theorem imageR_eq : imageR t plen target = fillChecksum (by decide) (withLengthsAndTarget t plen target) := rfl

/-- R103: the IPv4 header of an image verifies. -/
theorem selfVerifies_imageR : SelfVerifies (slice (imageR t plen target) 14 20 (by decide)) := by
  rw [imageR_eq]
  exact selfVerifies_fillChecksum _ _

theorem imageR_checksum (h : IpHeader)
    (heq : ∀ (k : Nat) (hk : k < 20), k ≠ 10 → k ≠ 11 → h[k] = (imageR t plen target)[14 + k]) :
    (imageR t plen target)[24] = hi8 (cksum20 h) ∧ (imageR t plen target)[25] = lo8 (cksum20 h) := by
  simp only [imageR_eq] at heq ⊢
  exact fillChecksum_checksum _ _ h heq

/-- R99: the target address, most significant byte first. -/
theorem getElem_imageR_target {k : Nat} (hk : k < 8) :
    (imageR t plen target)[44 + k] = target.extractLsb' (56 - 8 * k) 8 := by
  rw [imageR_eq, getElem_fillChecksum_outside _ _ _ (by omega)]
  simp [withLengthsAndTarget, hk, getElem_be64]

/-- R99: the image leaves every byte of the template outside its four fields. -/
theorem getElem_imageR_outside {k : Nat} (hk : k < 64)
    (h : k ∉ [16, 17, 24, 25, 38, 39, 44, 45, 46, 47, 48, 49, 50, 51]) : (imageR t plen target)[k] = t[k] := by
  have hfar : (k < 16 ∨ 18 ≤ k) ∧ (k < 24 ∨ 26 ≤ k) ∧ (k < 38 ∨ 40 ≤ k) ∧ (k < 44 ∨ 52 ≤ k) := by
    simp only [List.mem_cons, List.not_mem_nil, or_false] at h
    omega
  obtain ⟨h16, h24, h38, h44⟩ := hfar
  rw [imageR_eq, getElem_fillChecksum_outside _ _ hk h24, withLengthsAndTarget, getElem_patch_outside _ _ hk h44,
    getElem_patch_outside _ _ hk h38, getElem_patch_outside _ _ hk h16]

/-- R104: so the image holds what the template holds there. -/
theorem holdsBytes_imageR {l : List (Nat × Byte)} (h : HoldsBytes t l)
    (hl : ∀ p ∈ l, p.1 ∉ [16, 17, 24, 25, 38, 39, 44, 45, 46, 47, 48, 49, 50, 51]) :
    HoldsBytes (imageR t plen target) l := by
  intro p hp
  obtain ⟨hk, hv⟩ := Vector.getElem?_eq_some_iff.mp (h p hp)
  rw [Vector.getElem?_eq_getElem hk, getElem_imageR_outside t plen target hk (hl p hp), hv]

end Image

/-- Settles O45: the lengths, the target and the checksum are overwrites of the template; the rest is outside all
four. -/
theorem rdmxImageBytes : Obligations.RdmxImageBytes := by
  intro tr plen target
  refine ⟨?_, ?_, ?_, ?_, fun k hk => getElem_imageR_target tr plen target hk, imageR_checksum tr plen target,
    fun k hk => getElem_imageR_outside tr plen target hk⟩
  all_goals simp [imageR]

/-- Settles O46: both length fields are sums modulo 2^16. -/
theorem rdmxLengthsAndContractRange : Obligations.RdmxLengthsAndContractRange := by
  intro tr plen target
  obtain ⟨h16, h17, h38, h39, -⟩ := rdmxImageBytes tr plen target
  have hlt := plen.isLt
  have htotal : (u16 (imageR tr plen target)[16] (imageR tr plen target)[17]).toNat = (50 + plen.toNat) % 65536 := by
    rw [h16, h17, u16_be16, BitVec.toNat_add]
    rfl
  have hudp : (u16 (imageR tr plen target)[38] (imageR tr plen target)[39]).toNat = (30 + plen.toNat) % 65536 := by
    rw [h38, h39, u16_be16, BitVec.toNat_add]
    rfl
  dsimp only
  rw [htotal, hudp]
  exact ⟨by omega, by omega, by omega⟩

/-! ## The relation to the UDP image (R104) -/

section Agreement

variable {n m l : Nat} {t : Vector Byte n} {t' : Vector Byte m}

theorem getElem_patch_congr {a k : Nat} (b : Vector Byte l) (hk : k < n) (hk' : k < m) (h : t[k] = t'[k]) :
    (patch t a b)[k] = (patch t' a b)[k] := by
  simp only [getElem_patch, h]

/-- Templates that agree up to the end of their IPv4 headers at least agree there with their checksums in place. -/
theorem getElem_fillChecksum_congr (hl : 14 + 20 ≤ l) (hn : l ≤ n) (hm : l ≤ m)
    (h : ∀ (k : Nat) (hk : k < l), t[k] = t'[k]) (k : Nat) (hk : k < l) :
    (fillChecksum (hl.trans hn) t)[k] = (fillChecksum (hl.trans hm) t')[k] := by
  have hheader : slice t 14 20 (hl.trans hn) = slice t' 14 20 (hl.trans hm) := Vector.ext fun j hj => by
    rw [getElem_slice, getElem_slice, h (14 + j) (by omega)]
  rw [fillChecksum, fillChecksum, hheader]
  exact getElem_patch_congr _ _ _ (h k hk)

end Agreement

/-- R104: the total length of an RDMX frame is that of a UDP frame with 22 payload bytes more. -/
theorem rdmx_totalLength_eq (plen : BitVec 16) : 50 + plen = 28 + (plen + 22) := by bv_omega

/-- R104: before the UDP length both images depend on the total length and the template only. -/
theorem getElem_imageR_eq_imageU {tu : TemplateU} {tr : TemplateR} (plen : BitVec 16) (target : BitVec 64)
    (h : ∀ (k : Nat) (hk : k < 36), tu[k] = tr[k]) (k : Nat) (hk : k < 36) :
    (imageR tr plen target)[k] = (imageU tu (plen + 22))[k] := by
  rw [imageR_eq, imageU_eq]
  refine getElem_fillChecksum_congr (l := 36) (by decide) (by decide) (by decide) (fun j hj => ?_) k hk
  have hR : (withLengthsAndTarget tr plen target)[j] = (patch tr 16 (be16 (50 + plen)))[j] := by
    rw [withLengthsAndTarget, getElem_patch_outside _ _ _ (.inl (by omega)),
      getElem_patch_outside _ _ _ (.inl (by omega))]
  have hU : (withLengthsU tu (plen + 22))[j] = (patch tu 16 (be16 (28 + (plen + 22))))[j] :=
    getElem_patch_outside _ _ _ (.inl (by omega))
  rw [hR, hU, rdmx_totalLength_eq]
  exact getElem_patch_congr _ _ _ (h j hj).symm

/-! ## `RWRHDR` -/

theorem decode_rwrhdr (dest : Addr) (plen : BitVec 16) (target : BitVec 64) :
    decode (0x35 :: ((be32 dest).toList ++ (be16 plen).toList ++ (be64 target).toList)) =
      .ok (.rwrhdr dest plen target) :=
  decode_of_assigned (n := 15) rfl
    (congrArg₂ (fun (f : BitVec 64 → Instr) a => some (f a))
      (congrArg₂ Instr.rwrhdr (u32_be32 dest) (u16_be16 plen)) (u64_be64 target)) rfl

section Rwrhdr

variable {dest : Addr} {plen : BitVec 16} {target : BitVec 64} {s t : State}

theorem rwrhdr_onlyStamps (h : exec (.rwrhdr dest plen target) s = .next t) : OnlyStamps dest 64 s t :=
  stamp_onlyStamps ((exec_rwrhdr dest plen target s).symm.trans h)

theorem readBuf_rwrhdr (h : exec (.rwrhdr dest plen target) s = .next t) {k : Nat} (hk : k < 64) :
    readBuf t (dest + BitVec.ofNat 32 k) = some (imageR s.tr plen target)[k] :=
  readBuf_stamp (by decide) ((exec_rwrhdr dest plen target s).symm.trans h) hk

/-- R99, R100: the target address that is read back is the stamp's own operand. -/
theorem readBuf_rwrhdr_target (h : exec (.rwrhdr dest plen target) s = .next t) {k : Nat} (hk : k < 8) :
    readBuf t (dest + BitVec.ofNat 32 (44 + k)) = some (target.extractLsb' (56 - 8 * k) 8) := by
  rw [readBuf_rwrhdr h (by omega), getElem_imageR_target _ _ _ hk]

theorem Backed.rwrhdr_completes (h : Backed s.cfg dest 64) (plen : BitVec 16) (target : BitVec 64) :
    ∃ t, exec (.rwrhdr dest plen target) s = .next t :=
  h.stamp_completes.imp fun _ => (exec_rwrhdr dest plen target s).trans

end Rwrhdr

/-- Settles O44: the stamp's writes, of which the image's bytes are read back. -/
theorem rwrhdrStampsImage : Obligations.RwrhdrStampsImage := by
  intro dest plen target s hbacked
  obtain ⟨t, ht⟩ := hbacked.rwrhdr_completes plen target
  exact ⟨decode_rwrhdr dest plen target, t, ht, fun _ hk => readBuf_rwrhdr ht hk, rwrhdr_onlyStamps ht⟩

/-- Settles O47: the header read back is the image's own, which verifies. -/
theorem stampedRdmxHeaderVerifies : Obligations.StampedRdmxHeaderVerifies := by
  intro dest plen target s t ht header hread
  rw [exec_rwrhdr] at ht
  rw [header_eq_of_stamp (by decide) (by decide) ht hread]
  exact selfVerifies_imageR s.tr plen target

/-- Settles O48: the fixed bytes of the template are outside the four fields the image fills in. -/
theorem stampedRdmxHeaderContent : Obligations.StampedRdmxHeaderContent := by
  refine ⟨fun dest plen target s t inv ht => ⟨?_, fun k hk => readBuf_rwrhdr_target ht hk⟩,
    fun tu tr plen target => getElem_imageR_eq_imageU plen target⟩
  have himage := holdsBytes_imageR s.tr plen target (holdsBytes_append.mpr ⟨inv.trFixed, inv.trPort⟩)
    (by simp [fixedBytes, rdmxFixedBytes, rdmxPortBytes])
  exact readBuf_stamp_holdsBytes (by decide) himage ((exec_rwrhdr dest plen target s).symm.trans ht)

/-- Settles O49: the image depends on the template and the operands only, and a stamp leaves the template alone. -/
theorem rdmxStampIsIdempotent : Obligations.RdmxStampIsIdempotent := by
  refine ⟨fun d d' plen target s t s' u ht htr hu k hk => ?_, fun d d' plen plen' target target' s t u ht hu =>
    ⟨(rwrhdr_onlyStamps ht).tr, fun k hk => readBuf_rwrhdr_target hu hk⟩⟩
  rw [readBuf_rwrhdr hu hk, readBuf_rwrhdr ht hk, htr, (rwrhdr_onlyStamps ht).tr]

/-! ## Frames of `TR` (R102) -/

/-- R25 byte by byte. -/
theorem BlockInv.rdmxPort {s : State} (h : BlockInv s) :
    s.tr[36] = hi8 s.cfg.rdmxDstPort ∧ s.tr[37] = lo8 s.cfg.rdmxDstPort := by
  simpa [HoldsBytes, rdmxPortBytes] using h.trPort

/-- R102: the invariant fixes the destination port by the parameters, and a command keeps the invariant. -/
theorem BlockInv.exec_keeps_rdmxPort {i : Instr} {s t : State} (h : BlockInv s) (ht : Machine.exec i s = .next t)
    (hcfg : t.cfg = s.cfg) : t.tr[36] = s.tr[36] ∧ t.tr[37] = s.tr[37] := by
  obtain ⟨hs36, hs37⟩ := h.rdmxPort
  obtain ⟨ht36, ht37⟩ := (h.exec ht).rdmxPort
  rw [ht36, ht37, hs36, hs37, hcfg]
  exact ⟨rfl, rfl⟩

theorem udpSetter_tr {i : Instr} {f : Field} {s t : State} (h : exec i s = .next t) (hi : udpField i = some f) :
    t.tr = s.tr := by
  obtain ⟨b, hb⟩ := exec_udpSetter hi
  rw [← Host.Outcome.next.inj ((hb s).symm.trans h)]
  simp

/-- R16: a command that is neither `RCONS` nor an RDMX setter leaves `TR` alone. -/
theorem tr_eq_of_not_writesTr {i : Instr} {s t : State} (hi : ¬ WritesTr i) (h : exec i s = .next t) :
    t.tr = s.tr := by
  cases i with
  | cksum _ | hton16 _ | hton32 _ | hton64 _ | ntoh16 _ | ntoh32 _ | ntoh64 _ =>
    cases h
    rfl
  | ucons =>
    cases (exec_ucons s).symm.trans h
    rfl
  | usmac _ _ | usmacb _ | usip _ _ | usport _ _ => exact udpSetter_tr h rfl
  | uwrhdr _ _ => exact (uwrhdr_onlyStamps h).tr
  | rwrhdr _ _ _ => exact (rwrhdr_onlyStamps h).tr
  | rcons => exact absurd (.inl rfl) hi
  | rsmac _ _ | rsmacb _ | rsip _ _ | rsport _ => exact absurd (.inr rfl) hi

theorem not_inField_of_extension (f : Field) {k : Nat} (hk : 42 ≤ k) : ¬ inField f k := by
  cases f <;> simp only [inField] <;> omega

/-- R102: the extension header's bytes of `TR` are written by `RCONS` alone. -/
theorem exec_keeps_extension {i : Instr} {s t : State} (hi : i ≠ .rcons) (h : exec i s = .next t) {k : Nat}
    (hk : k < 64) (hext : 42 ≤ k) : t.tr[k] = s.tr[k] := by
  by_cases hw : WritesTr i
  · obtain ⟨f, hf⟩ := Option.isSome_iff_exists.mp (hw.resolve_left hi)
    obtain ⟨b, hb⟩ := rdmxSetter_next hf
    simp only [(hb s t h).2]
    exact getElem_setField_outside s.tr _ hk (not_inField_of_extension f hext)
  · rw [tr_eq_of_not_writesTr hw h]

/-- Settles O50: each setter overwrites one field, the fields are disjoint ranges, and none reaches the extension. -/
theorem rdmxSettersCommute : Obligations.RdmxSettersCommute := by
  refine ⟨fun i f s hi => ?_, fun i j f g s t u t' u' hi hj hne ht hu ht' hu' => ?_,
    fun i j f s t u t' hi hj ht hu ht' => ?_, fun i s t hi ht k hk hext => exec_keeps_extension hi ht hk hext⟩
  · obtain ⟨b, hb⟩ := exec_rdmxSetter hi
    exact ⟨_, hb s, setField_onlyTr s f _, fun inv => inv.exec_keeps_rdmxPort (hb s) (by simp)⟩
  · obtain ⟨b, hb⟩ := rdmxSetter_next hi
    obtain ⟨c, hc⟩ := rdmxSetter_next hj
    obtain ⟨htcfg, httr⟩ := hb s t ht
    obtain ⟨htcfg', httr'⟩ := hc s t' ht'
    rw [(hc t u hu).2, (hb t' u' hu').2, htcfg, htcfg', httr, httr', setField_comm _ hne]
  · obtain ⟨b, hb⟩ := rdmxSetter_next hi
    obtain ⟨c, hc⟩ := rdmxSetter_next hj
    obtain ⟨htcfg, httr⟩ := hb s t ht
    rw [(hc t u hu).2, (hc s t' ht').2, htcfg, httr, setField_setField]

end Sys2Proof.Machine

/-! # The exception (60_exceptions.md R105 to R110) -/

namespace Sys2Proof.Machine

open Sys2Proof.Claims

theorem udpSetter_rsp {i : Instr} {f : Field} {s t : State} (h : exec i s = .next t) (hi : udpField i = some f) :
    t.rsp = s.rsp ++ [[0x00]] := by
  obtain ⟨b, hb⟩ := exec_udpSetter hi
  rw [← Host.Outcome.next.inj ((hb s).symm.trans h)]
  exact (setField_onlyTu s f b).rsp

theorem rdmxSetter_rsp {i : Instr} {f : Field} {s t : State} (h : exec i s = .next t) (hi : rdmxField i = some f) :
    t.rsp = s.rsp ++ [[0x00]] := by
  obtain ⟨b, hb⟩ := exec_rdmxSetter hi
  rw [← Host.Outcome.next.inj ((hb s).symm.trans h)]
  exact (setField_onlyTr s f (b s.cfg)).rsp

/-- R57: a command that answers a next state sends one response: status OK, then a result of the table's length. -/
theorem exec_answersOk {i : Instr} {s t : State} (h : exec i s = .next t) :
    ∃ result : List Byte, t.rsp = s.rsp ++ [0x00 :: result] ∧ (0x00 :: result).length = okLength i := by
  cases i with
  | cksum _ | hton16 _ | hton32 _ | hton64 _ | ntoh16 _ | ntoh32 _ | ntoh64 _ =>
    cases h
    exact ⟨_, State.respond_rsp _ s, congrArg (· + 1) Vector.length_toList⟩
  | ucons =>
    cases (exec_ucons s).symm.trans h
    exact ⟨[], State.respond_rsp _ _, rfl⟩
  | rcons =>
    cases (exec_rcons s).symm.trans h
    exact ⟨[], State.respond_rsp _ _, rfl⟩
  | usmac _ _ | usmacb _ | usip _ _ | usport _ _ => exact ⟨[], udpSetter_rsp h rfl, rfl⟩
  | rsmac _ _ | rsmacb _ | rsip _ _ | rsport _ => exact ⟨[], rdmxSetter_rsp h rfl, rfl⟩
  | uwrhdr _ _ => exact ⟨[], (uwrhdr_onlyStamps h).rsp, rfl⟩
  | rwrhdr _ _ _ => exact ⟨[], (rwrhdr_onlyStamps h).rsp, rfl⟩

/-- Settles O9: an illegal packet is one step to `State.raiseIllegal`, and what a command sends has status OK. -/
theorem illegalPacketHasNoEffect : Obligations.IllegalPacketHasNoEffect := by
  refine ⟨fun s p rest hc hp => ⟨_, step_illegal hc hp, raiseIllegal_onlyAnswers _⟩, fun i s t h => ?_⟩
  obtain ⟨result, hrsp, -⟩ := exec_answersOk h
  exact ⟨result, hrsp⟩

end Sys2Proof.Machine

/-! # Commands as packets and as text (30_encoding.md) -/

namespace Sys2Proof.Machine

open Sys2Proof.Claims

/-- Settles O3: command by command, the decoder reads back the operands that the encoder lays out. -/
theorem decodeOfEncode : Obligations.DecodeOfEncode
  | .cksum h => decode_cksum h
  | .hton16 v => decode_hton16 v
  | .hton32 v => decode_hton32 v
  | .hton64 v => decode_hton64 v
  | .ntoh16 v => decode_ntoh16 v
  | .ntoh32 v => decode_ntoh32 v
  | .ntoh64 v => decode_ntoh64 v
  | .ucons => decode_ucons
  | .usmac src dst => decode_usmac src dst
  | .usmacb src => decode_usmacb src
  | .usip src dst => decode_usip src dst
  | .usport sport dport => decode_usport sport dport
  | .uwrhdr dest plen => decode_uwrhdr dest plen
  | .rcons => decode_rcons
  | .rsmac src dst => decode_rsmac src dst
  | .rsmacb src => decode_rsmacb src
  | .rsip src dst => decode_rsip src dst
  | .rsport sport => decode_rsport sport
  | .rwrhdr dest plen target => decode_rwrhdr dest plen target

/-- Settles O4: both packets are the packet of the one command. -/
theorem encodeOfDecode : Obligations.EncodeOfDecode :=
  ⟨fun _ _ => encode_of_decode, fun _ _ _ hp hq => (encode_of_decode hp).symm.trans (encode_of_decode hq)⟩

/-- Settles O1: each printed packet is laid out as the encoder lays out the command beside it. -/
theorem printedPacketsDecode : Obligations.PrintedPacketsDecode :=
  ⟨decode_usmac #v[0xC4, 0x00, 0xAD, 0x3A, 0xD3, 0x6B] #v[0x01, 0x02, 0x03, 0x04, 0x05, 0x06],
    decode_usport 1234 5678, decode_rwrhdr 0x00002000 256 0x123456789ABCDEF0, decode_hton16 0x1234⟩

/-- Settles O6: the example lines are read by evaluation; the one-operand forms are read alike for every operand. -/
theorem assemblyExamples : Obligations.AssemblyExamples :=
  ⟨by decide, by decide, by decide, by decide, by decide, by decide, fun _ => rfl, fun _ => rfl⟩

end Sys2Proof.Machine

/-! # Steps: the first packet, idling, responses, the invariant (00_scope.md section 4, 10_state.md section 6) -/

namespace Sys2Proof.Machine

open Sys2Proof.Claims

theorem step_packet {s : State} {p : Packet} {rest : List Input} (hc : s.cmd = .packet p :: rest) :
    step s = runPacket p (s.setCmd rest) :=
  (step_input hc).trans (takeInput_packet _ _)

/-- Settles O7: the packet that arrived first is the one decoded. -/
theorem stepRunsDecodedCommand : Obligations.StepRunsDecodedCommand :=
  fun _ _ _ _ hc hi => (step_packet hc).trans (runPacket_ok hi _)

/-- Settles O8: with nothing to take, a step is idle. -/
theorem idleKeepsEverything : Obligations.IdleKeepsEverything := fun _ => step_idle

/-- Settles O5: a packet is a command, whose response has the table's length, or illegal, and then answered `01`. -/
theorem oneResponsePerPacket : Obligations.OneResponsePerPacket := by
  intro s p rest t hc ht
  rw [step_packet hc] at ht
  obtain ⟨i, hi, hexec⟩ | ⟨hillegal, rfl⟩ := runPacket_cases ht
  · obtain ⟨result, hrsp, hlen⟩ := exec_answersOk hexec
    refine ⟨_, hrsp, fun j hj => ?_, fun hp => absurd ((exists_decode_iff_isCommand p).mp ⟨i, hi⟩) hp⟩
    cases hi.symm.trans hj
    exact ⟨rfl, hlen⟩
  · exact ⟨_, rfl, fun i hi => absurd hi (hillegal i), fun _ => rfl⟩

/-- Settles O51: the default images hold the bytes of R23 to R25. -/
theorem resetStatesSatisfyInvariant : Obligations.ResetStatesSatisfyInvariant := fun c _ => blockInv_resetOf c

/-- Settles O52: every operation a step is made of keeps the invariant. -/
theorem everyStepKeepsInvariant : Obligations.EveryStepKeepsInvariant := fun _ _ h => h.step

end Sys2Proof.Machine

/-! # What a command is made of (00_scope.md R10)

A command that completes has replaced a template or none, done its `Writes` and answered OK with a result. -/

namespace Sys2Proof.Machine

open Sys2Proof.Claims

/-! ## The effect of a command -/

/-- What a command makes of the templates and what it answers; a part that is left out leaves things as they are. -/
structure Effect where
  /-- The UDP template afterwards. -/
  tu : Config → TemplateU → TemplateU := fun _ t => t
  /-- The RDMX template afterwards. -/
  tr : Config → TemplateR → TemplateR := fun _ t => t
  /-- The result bytes after the status byte. -/
  result : Config → List Byte := fun _ => []

/-- R64 to R98, without the byte writes on `BUF`. -/
def effectOf : Instr → Effect
  | .cksum h => { result := fun _ => (be16 (cksum20 h)).toList }
  | .hton16 v => { result := fun c => (be16 (hton16 c v)).toList }
  | .hton32 v => { result := fun c => (be32 (hton32 c v)).toList }
  | .hton64 v => { result := fun c => (be64 (hton64 c v)).toList }
  | .ntoh16 v => { result := fun c => (be16 (ntoh16 c v)).toList }
  | .ntoh32 v => { result := fun c => (be32 (ntoh32 c v)).toList }
  | .ntoh64 v => { result := fun c => (be64 (ntoh64 c v)).toList }
  | .ucons => { tu := fun c _ => defaultU c }
  | .usmac src dst => { tu := fun _ t => patch (patch t 6 src) 0 dst }
  | .usmacb src => { tu := fun _ t => patch (patch t 6 src) 0 broadcastMac }
  | .usip src dst => { tu := fun _ t => patch (patch t 26 src) 30 dst }
  | .usport sport dport => { tu := fun _ t => patch (patch t 34 (be16 sport)) 36 (be16 dport) }
  | .rcons => { tr := fun c _ => defaultR c }
  | .rsmac src dst => { tr := fun _ t => patch (patch t 6 src) 0 dst }
  | .rsmacb src => { tr := fun _ t => patch (patch t 6 src) 0 broadcastMac }
  | .rsip src dst => { tr := fun _ t => patch (patch t 26 src) 30 dst }
  | .rsport sport => { tr := fun c t => patch (patch t 34 (be16 sport)) 36 (be16 c.rdmxDstPort) }
  | .uwrhdr _ _ => {}
  | .rwrhdr _ _ _ => {}

/-- The state with its templates and `BUF` replaced. -/
def State.replace (x : TemplateU) (y : TemplateR) (m : Memory) (s : State) : State := ((s.setTu x).setTr y).setBuf m

theorem State.replace_none (s : State) : s.replace s.tu s.tr s.buf = s := rfl

theorem State.replace_tu (x : TemplateU) (s : State) : s.replace x s.tr s.buf = s.setTu x := rfl

theorem State.replace_tr (y : TemplateR) (s : State) : s.replace s.tu y s.buf = s.setTr y := rfl

theorem State.replace_buf (m : Memory) (s : State) : s.replace s.tu s.tr m = s.setBuf m := rfl

/-- The state after a command that completes. -/
def performed (i : Instr) (s : State) : State :=
  (s.replace ((effectOf i).tu s.cfg s.tu) ((effectOf i).tr s.cfg s.tr)
    (Memory.writeAll s.buf (writesOf i s))).respond ((effectOf i).result s.cfg)

/-- Every command, in one equation: its effect, if storage backs its writes. -/
theorem exec_eq (i : Instr) (s : State) : exec i s = ifAdmitted (writesOf i s) s (performed i s) := by
  cases i with
  | cksum _ | hton16 _ | hton32 _ | hton64 _ | ntoh16 _ | ntoh32 _ | ntoh64 _ => rfl
  | ucons | usmac _ _ | usmacb _ | usip _ _ | usport _ _ =>
    simp only [exec_ucons, exec_usmac, exec_usmacb, exec_usip, exec_usport, ← State.replace_tu]
    rfl
  | rcons | rsmac _ _ | rsmacb _ | rsip _ _ | rsport _ =>
    simp only [exec_rcons, exec_rsmac, exec_rsmacb, exec_rsip, exec_rsport, ← State.replace_tr]
    rfl
  | uwrhdr _ _ | rwrhdr _ _ _ =>
    simp only [exec_uwrhdr, exec_rwrhdr, stamp, ← State.replace_buf]
    rfl

/-- What a command that answers a next state has done. -/
theorem exec_next {i : Instr} {s t : State} (h : exec i s = .next t) :
    t = performed i s ∧ ∀ w ∈ writesOf i s, bufAdmits s.cfg w.1 = true :=
  ifAdmitted_next ((exec_eq i s).symm.trans h)

section Performed

variable (i : Instr) (s : State)

@[simp] theorem performed_cfg : (performed i s).cfg = s.cfg := rfl
@[simp] theorem performed_tu : (performed i s).tu = (effectOf i).tu s.cfg s.tu := rfl
@[simp] theorem performed_tr : (performed i s).tr = (effectOf i).tr s.cfg s.tr := rfl
@[simp] theorem performed_buf : (performed i s).buf = Memory.writeAll s.buf (writesOf i s) := rfl
@[simp] theorem performed_cmd : (performed i s).cmd = s.cmd := rfl
@[simp] theorem performed_rsp : (performed i s).rsp = s.rsp ++ [0x00 :: (effectOf i).result s.cfg] := rfl
@[simp] theorem performed_draws : (performed i s).draws = s.draws := rfl

end Performed

/-! ## The byte writes of a command -/

/-- R86, R98: the writes are those of the image, which the template gives. -/
theorem writesOf_congr (i : Instr) {s s' : State} (htu : s'.tu = s.tu) (htr : s'.tr = s.tr) :
    writesOf i s' = writesOf i s := by
  cases i with
  | uwrhdr dest plen => exact congrArg (fun t => imageWrites dest (imageU t plen).toList) htu
  | rwrhdr dest plen target => exact congrArg (fun t => imageWrites dest (imageR t plen target).toList) htr
  | _ => rfl

theorem writesOf_eq_nil {i : Instr} (hi : ¬ IsStamp i) (s : State) : writesOf i s = [] := by
  cases i with
  | uwrhdr _ _ | rwrhdr _ _ _ => exact absurd trivial hi
  | _ => rfl

theorem length_writesOf_uwrhdr (dest : Addr) (plen : BitVec 16) (s : State) :
    (writesOf (.uwrhdr dest plen) s).length = 42 :=
  (length_imageWrites _ _).trans Vector.length_toList

theorem length_writesOf_rwrhdr (dest : Addr) (plen : BitVec 16) (target : BitVec 64) (s : State) :
    (writesOf (.rwrhdr dest plen target) s).length = 64 :=
  (length_imageWrites _ _).trans Vector.length_toList

/-- The byte writes go to distinct addresses. -/
abbrev DistinctWrites (ws : List BufWrite) : Prop := ws.Pairwise fun x y => x.1 ≠ y.1

theorem writesOf_distinct (i : Instr) (s : State) : DistinctWrites (writesOf i s) := by
  cases i with
  | uwrhdr dest plen => exact imageWrites_distinct dest (by simp)
  | rwrhdr dest plen target => exact imageWrites_distinct dest (by simp)
  | _ => exact .nil

/-- Settles O56: the one equation of a command, and its writes as the image's. -/
theorem commandsPerformTheirWrites : Obligations.CommandsPerformTheirWrites :=
  ⟨fun _ _ _ h => congrArg State.buf (exec_next h).1, writesOf_distinct, fun _ s hi => writesOf_eq_nil hi s,
    length_writesOf_uwrhdr, length_writesOf_rwrhdr⟩

/-! ## Which commands write what -/

theorem tu_eq_of_not_writesTu {i : Instr} {s t : State} (hi : ¬ WritesTu i) (h : exec i s = .next t) :
    t.tu = s.tu := by
  rw [(exec_next h).1, performed_tu]
  cases i with
  | ucons => exact absurd (.inl rfl) hi
  | usmac _ _ | usmacb _ | usip _ _ | usport _ _ => exact absurd (.inr rfl) hi
  | _ => rfl

theorem buf_eq_of_not_isStamp {i : Instr} {s t : State} (hi : ¬ IsStamp i) (h : exec i s = .next t) :
    t.buf = s.buf := by
  rw [(exec_next h).1, performed_buf, writesOf_eq_nil hi, Memory.writeAll_nil]

theorem not_writesTr_of_writesTu {i : Instr} (hi : WritesTu i) : ¬ WritesTr i := by
  cases i with
  | rcons | rsmac _ _ | rsmacb _ | rsip _ _ | rsport _ => simp [WritesTu, udpField] at hi
  | _ => simp [WritesTr, rdmxField]

/-- Settles O55: no command writes both templates, so one that writes a template leaves the other alone. -/
theorem onlyNamedCommandsWrite : Obligations.OnlyNamedCommandsWrite := fun _ _ _ h =>
  ⟨fun hi => tu_eq_of_not_writesTu hi h, fun hi => tr_eq_of_not_writesTr hi h, fun hi => buf_eq_of_not_isStamp hi h,
    fun hi => tr_eq_of_not_writesTr (not_writesTr_of_writesTu hi) h,
    fun hi => tu_eq_of_not_writesTu (fun hu => not_writesTr_of_writesTu hu hi) h⟩

/-! ## When a command stops (R36, R38) -/

section Stops

variable {ws : List BufWrite} {s : State} (t : State)

theorem ifAdmitted_of_device (h : ∃ w ∈ ws, bufKind s.cfg w.1 = some .device) :
    ifAdmitted ws s t = .refused .deviceWrite := by
  obtain ⟨w, hw, hdev⟩ := h
  have hall : ¬ (ws.all fun w => bufAdmits s.cfg w.1) = true := fun hall => by
    simpa [bufAdmits, hdev] using List.all_eq_true.mp hall w hw
  have hany : (ws.any fun w => bufKind s.cfg w.1 == some .device) = true :=
    List.any_eq_true.mpr ⟨w, hw, by simp [hdev]⟩
  rw [ifAdmitted, if_neg hall, if_pos hany]

theorem ifAdmitted_of_unbacked (h : ∃ w ∈ ws, bufAdmits s.cfg w.1 = false)
    (hdev : ∀ w ∈ ws, bufKind s.cfg w.1 ≠ some .device) : ifAdmitted ws s t = .fault .unbackedBuf := by
  obtain ⟨w, hw, hno⟩ := h
  have hall : ¬ (ws.all fun w => bufAdmits s.cfg w.1) = true := fun hall => by
    simpa [hno] using List.all_eq_true.mp hall w hw
  have hany : ¬ (ws.any fun w => bufKind s.cfg w.1 == some .device) = true := fun hany => by
    obtain ⟨x, hx, hxdev⟩ := List.any_eq_true.mp hany
    exact hdev x hx (by simpa using hxdev)
  rw [ifAdmitted, if_neg hall, if_neg hany]

end Stops

/-- Settles O57: the three branches of the admission of a command's writes. -/
theorem commandsStopOnlyOnUnbackedStamp : Obligations.CommandsStopOnlyOnUnbackedStamp :=
  ⟨fun i s h => ⟨_, (exec_eq i s).trans (ifAdmitted_of_admits _ h)⟩,
    fun i s h => (exec_eq i s).trans (ifAdmitted_of_device _ h),
    fun i s h hdev => (exec_eq i s).trans (ifAdmitted_of_unbacked _ h hdev)⟩

end Sys2Proof.Machine

/-! # The parameters (00_scope.md R5) -/

namespace Sys2Proof.Machine

open Sys2Proof.Claims

theorem exec_cfg {i : Instr} {s t : State} (h : exec i s = .next t) : t.cfg = s.cfg := by
  rw [(exec_next h).1, performed_cfg]

theorem runPacket_cfg {p : Packet} {s t : State} (h : runPacket p s = .next t) : t.cfg = s.cfg := by
  obtain ⟨i, -, hexec⟩ | ⟨-, rfl⟩ := runPacket_cases h
  · exact exec_cfg hexec
  · exact s.raiseIllegal_cfg

theorem takeInput_cfg {e : Input} {s t : State} (h : takeInput e s = .next t) : t.cfg = s.cfg := by
  cases e with
  | packet p => exact runPacket_cfg h
  | packetRacing p agents =>
    obtain ⟨u, hu, rfl⟩ := runRacing_next h
    simp [runPacket_cfg hu]
  | packetReset p agents => simp [runAbandoned_next h]
  | reset =>
    cases (takeInput_reset s).symm.trans h
    exact s.resetBlock_cfg
  | agentWrite w => simp [(agentWrites_next h).1]

/-- Settles O54: no input's effect touches the parameters, and an idle step changes nothing. -/
theorem parametersNeverChange : Obligations.ParametersNeverChange := by
  intro s t h
  obtain ⟨-, rfl⟩ | ⟨e, rest, -, he⟩ := step_cases h
  · rfl
  · exact (takeInput_cfg he).trans (State.setCmd_cfg rest s)

end Sys2Proof.Machine

/-! # What a step does not depend on (10_state.md section 7, 41_byteorder.md section 3) -/

namespace Sys2Proof.Machine

open Sys2Proof.Claims

theorem bufAdmits_congr {c c' : Config} (h : c'.bufMap = c.bufMap) (a : Addr) : bufAdmits c' a = bufAdmits c a := by
  rw [bufAdmits, bufAdmits, bufKind, bufKind, h]

/-- Writes that are admitted are admitted whatever becomes of them, under every configuration with the same map. -/
theorem ifAdmitted_next_of_next {ws : List BufWrite} {s s' t u : State} (h : ifAdmitted ws s t = .next u)
    (hmap : s'.cfg.bufMap = s.cfg.bufMap) (t' : State) : ifAdmitted ws s' t' = .next t' :=
  ifAdmitted_of_admits t' fun w hw => (bufAdmits_congr hmap w.1).trans ((ifAdmitted_next h).2 w hw)

/-- A command that completes also completes from a state with the same templates and the same map. -/
theorem exec_next_of_next {i : Instr} {s s' t : State} (h : exec i s = .next t) (htu : s'.tu = s.tu)
    (htr : s'.tr = s.tr) (hmap : s'.cfg.bufMap = s.cfg.bufMap) : exec i s' = .next (performed i s') := by
  rw [exec_eq] at h ⊢
  rw [writesOf_congr i htu htr]
  exact ifAdmitted_next_of_next h hmap _

theorem packetWrites_congr (p : Packet) {s s' : State} (htu : s'.tu = s.tu) (htr : s'.tr = s.tr) :
    packetWrites p s' = packetWrites p s := by
  rw [packetWrites, packetWrites]
  cases decode p with
  | ok i => exact writesOf_congr i htu htr
  | error _ => rfl

theorem runRacing_of_next {p : Packet} {s u : State} (h : runPacket p s = .next u) (agents : List BufWrite) :
    runRacing p agents s = agentWrites (agentsThatStay s.draws (packetWrites p s) agents) u.countDraw := by
  rw [runRacing, h]

/-! ## The host's byte order -/

/-- R78: what a command that is no conversion makes of the templates and answers ignores the byte order. -/
theorem effectOf_forHost {i : Instr} (hi : ¬ IsConversion i) (b : Bool) (s : State) :
    (effectOf i).tu (forHost b s).cfg = (effectOf i).tu s.cfg ∧
      (effectOf i).tr (forHost b s).cfg = (effectOf i).tr s.cfg ∧
      (effectOf i).result (forHost b s).cfg = (effectOf i).result s.cfg := by
  cases i with
  | hton16 _ | hton32 _ | hton64 _ | ntoh16 _ | ntoh32 _ | ntoh64 _ => exact absurd trivial hi
  | _ => exact ⟨rfl, rfl, rfl⟩

theorem performed_forHost {i : Instr} (hi : ¬ IsConversion i) (b : Bool) (s : State) :
    performed i (forHost b s) = forHost b (performed i s) := by
  obtain ⟨htu, htr, hresult⟩ := effectOf_forHost hi b s
  have hws : writesOf i (forHost b s) = writesOf i s := writesOf_congr i rfl rfl
  exact State.ext_fields rfl (congrFun htu s.tu) (congrFun htr s.tr) (congrArg (Memory.writeAll s.buf) hws) rfl
    (congrArg (fun result => s.rsp ++ [0x00 :: result]) hresult) rfl

/-- Settles O60: the admission of the writes ignores the byte order too. -/
theorem headersIgnoreHostByteOrder : Obligations.HeadersIgnoreHostByteOrder := by
  intro i s t b hi h
  rw [exec_next_of_next h (s' := forHost b s) rfl rfl rfl, performed_forHost hi, (exec_next h).1]

/-! ## Responses sent before -/

section Responses

variable (q : List Packet)

theorem afterResponses_send (x : Packet) (s : State) : (afterResponses q s).send x = afterResponses q (s.send x) :=
  State.ext_fields rfl rfl rfl rfl rfl (List.append_assoc q s.rsp [x]) rfl

theorem performed_afterResponses (i : Instr) (s : State) :
    performed i (afterResponses q s) = afterResponses q (performed i s) := by
  have hws : writesOf i (afterResponses q s) = writesOf i s := writesOf_congr i rfl rfl
  exact State.ext_fields rfl rfl rfl (congrArg (Memory.writeAll s.buf) hws) rfl (List.append_assoc _ _ _) rfl

variable {s t : State}

theorem exec_afterResponses {i : Instr} (h : exec i s = .next t) :
    exec i (afterResponses q s) = .next (afterResponses q t) := by
  rw [exec_next_of_next h (s' := afterResponses q s) rfl rfl rfl, performed_afterResponses, (exec_next h).1]

theorem runPacket_afterResponses {p : Packet} (h : runPacket p s = .next t) :
    runPacket p (afterResponses q s) = .next (afterResponses q t) := by
  obtain ⟨i, hi, hexec⟩ | ⟨hillegal, rfl⟩ := runPacket_cases h
  · exact (runPacket_ok hi _).trans (exec_afterResponses q hexec)
  · exact (runPacket_error hillegal _).trans (congrArg Host.Outcome.next (afterResponses_send q [0x01] s))

theorem agentWrites_afterResponses {ws : List BufWrite} (h : agentWrites ws s = .next t) :
    agentWrites ws (afterResponses q s) = .next (afterResponses q t) := by
  rw [(agentWrites_next h).1]
  exact ifAdmitted_next_of_next h rfl _

theorem runRacing_afterResponses {p : Packet} {agents : List BufWrite} (h : runRacing p agents s = .next t) :
    runRacing p agents (afterResponses q s) = .next (afterResponses q t) := by
  obtain ⟨u, hu, -⟩ := runRacing_next h
  have hws : packetWrites p (afterResponses q s) = packetWrites p s := packetWrites_congr p rfl rfl
  rw [runRacing_of_next hu] at h
  rw [runRacing_of_next (runPacket_afterResponses q hu), hws]
  exact agentWrites_afterResponses q h

theorem runAbandoned_afterResponses {p : Packet} {agents : List BufWrite} (h : runAbandoned p agents s = .next t) :
    runAbandoned p agents (afterResponses q s) = .next (afterResponses q t) := by
  have hws : packetWrites p (afterResponses q s) = packetWrites p s := packetWrites_congr p rfl rfl
  rw [runAbandoned_next h]
  simp only [runAbandoned, hws] at h ⊢
  exact ifAdmitted_next_of_next h rfl _

theorem takeInput_afterResponses {e : Input} (h : takeInput e s = .next t) :
    takeInput e (afterResponses q s) = .next (afterResponses q t) := by
  cases e with
  | packet p => exact runPacket_afterResponses q h
  | packetRacing p agents => exact runRacing_afterResponses q h
  | packetReset p agents => exact runAbandoned_afterResponses q h
  | reset =>
    cases (takeInput_reset s).symm.trans h
    rfl
  | agentWrite w => exact agentWrites_afterResponses q h

end Responses

/-- Settles O10: nothing a step is made of reads the responses. -/
theorem responsesAreNotState : Obligations.ResponsesAreNotState := by
  intro s t q h
  obtain ⟨hidle, rfl⟩ | ⟨e, rest, hc, he⟩ := step_cases h
  · exact step_idle hidle
  · exact (step_input (s := afterResponses q s) hc).trans (takeInput_afterResponses q he)

end Sys2Proof.Machine

/-! # Byte writes on `BUF` (20_memory.md, 70_reset_and_hazards.md) -/

namespace Sys2Proof.Machine

open Sys2Proof.Claims

/-! ## The order of writes, and later writes -/

theorem DistinctWrites.of_perm {ws ws' : List BufWrite} (h : ws.Perm ws') (hd : DistinctWrites ws') :
    DistinctWrites ws :=
  (h.pairwise_iff fun hne => hne.symm).mpr hd

/-- R37: writes to distinct addresses leave the same contents in every order. -/
theorem Memory.writeAll_perm {m : Memory} {ws ws' : List BufWrite} (hm : Memory.wf m) (h : ws.Perm ws')
    (hd : DistinctWrites ws') : Memory.writeAll m ws = Memory.writeAll m ws' := by
  refine Memory.eq_of_read_addr (Memory.wf_writeAll hm ws) (Memory.wf_writeAll hm ws') fun a => ?_
  by_cases ha : ∃ w ∈ ws', w.1 = a
  · obtain ⟨w, hw, rfl⟩ := ha
    rw [Memory.read_writeAll_mem m hd hw, Memory.read_writeAll_mem m (hd.of_perm h) (h.mem_iff.mpr hw)]
  · push Not at ha
    rw [Memory.read_writeAll_other m ha, Memory.read_writeAll_other m fun w hw => ha w (h.mem_iff.mp hw)]

/-- Settles O58: a command's addresses are distinct. -/
theorem stampWriteOrderLeavesSameBuf : Obligations.StampWriteOrderLeavesSameBuf :=
  fun i s _ hperm hwf => Memory.writeAll_perm hwf hperm (writesOf_distinct i s)

section Commands

variable {i : Instr} {s t : State}

theorem readBuf_exec_mem (h : exec i s = .next t) {w : BufWrite} (hw : w ∈ writesOf i s) :
    readBuf t w.1 = some w.2 := by
  rw [(exec_next h).1]
  exact Memory.read_writeAll_mem s.buf (writesOf_distinct i s) hw

theorem readBuf_exec_other (h : exec i s = .next t) {a : Addr} (ha : ∀ w ∈ writesOf i s, w.1 ≠ a) :
    readBuf t a = readBuf s a := by
  rw [(exec_next h).1]
  exact Memory.read_writeAll_other s.buf ha

end Commands

/-- Settles O59: the later command's writes are read back, and they leave the earlier one's bytes elsewhere. -/
theorem laterStampWins : Obligations.LaterStampWins := fun _ _ _ _ _ ht hu =>
  ⟨fun _ hw => readBuf_exec_mem hu hw,
    fun _ hw hother => (readBuf_exec_other hu hother).trans (readBuf_exec_mem ht hw)⟩

/-! ## Writes of other agents (R37, R126) -/

/-- One write of another agent lands and touches nothing else. -/
theorem readBuf_setBuf_writeAll_singleton (s : State) (a : Addr) (b : Byte) (x : Addr) :
    readBuf (s.setBuf (Memory.writeAll s.buf [(a, b)])) x = if x = a then some b else readBuf s x := by
  split_ifs with hx
  · subst hx
    exact Memory.read_writeAll_mem s.buf (List.pairwise_singleton _ _) List.mem_cons_self
  · exact Memory.read_writeAll_other s.buf fun w hw => by simpa [List.mem_singleton.mp hw] using Ne.symm hx

theorem agentWrites_singleton {s : State} {a : Addr} (ha : bufAdmits s.cfg a = true) (b : Byte) :
    agentWrites [(a, b)] s = .next (s.setBuf (Memory.writeAll s.buf [(a, b)])) :=
  ifAdmitted_of_admits _ (List.forall_mem_singleton.mpr ha)

/-- Settles O14: the write is the whole effect of the input. -/
theorem agentWriteLands : Obligations.AgentWriteLands := by
  intro s a b rest hc ha
  have hread := readBuf_setBuf_writeAll_singleton (s.setCmd rest) a b
  refine ⟨_, (step_input hc).trans (agentWrites_singleton (s := s.setCmd rest) ha b), ?_, fun x hx => ?_, rfl, rfl, rfl,
    ⟨rfl, rfl, rfl⟩⟩
  · rw [hread, if_pos rfl]
  · rw [hread, if_neg hx]
    rfl

/-- R37: a single racing write stays, unless it meets the stamp and the free choice is the stamp's byte. -/
theorem agentsThatStay_singleton (d : Nat) (stamped : List BufWrite) (w : BufWrite) :
    agentsThatStay d stamped [w] =
      if (∃ x ∈ stamped, x.1 = w.1) ∧ Config.freeAgentWins d w.1 = false then [] else [w] := by
  have hmeets : (stamped.any fun x => x.1 == w.1) = true ↔ ∃ x ∈ stamped, x.1 = w.1 := by
    simp only [List.any_eq_true, beq_iff_eq]
  simp only [← hmeets, agentsThatStay, List.filter_singleton]
  cases stamped.any fun x => x.1 == w.1 <;> cases Config.freeAgentWins d w.1 <;> rfl

/-- Settles O13: either the racing write is dropped, or it is done after the packet's own. -/
theorem racingWriteIsEither : Obligations.RacingWriteIsEither := by
  intro s p a b rest u hc hu ha
  have hws : packetWrites p (s.setCmd rest) = packetWrites p s := packetWrites_congr p rfl rfl
  have hadm : bufAdmits u.countDraw.cfg a = true := by
    rw [State.countDraw_cfg, runPacket_cfg hu]
    exact ha
  rw [step_input hc, takeInput_packetRacing, runRacing_of_next hu, hws, State.setCmd_draws, agentsThatStay_singleton]
  split_ifs with hlost
  · exact ⟨u.countDraw, rfl, rfl, rfl, rfl, rfl, rfl, rfl, fun _ _ => rfl⟩
  · have hread := readBuf_setBuf_writeAll_singleton u.countDraw a b
    refine ⟨_, agentWrites_singleton hadm b, rfl, rfl, rfl, rfl, rfl, ?_, fun x hx => ?_⟩
    · rw [hread, if_pos rfl]
    · rw [hread, if_neg hx]
      rfl

/-! ## `RESET` during a command (R118) -/

theorem packetWrites_distinct (p : Packet) (s : State) : DistinctWrites (packetWrites p s) := by
  rw [packetWrites]
  cases decode p with
  | ok i => exact writesOf_distinct i s
  | error _ => exact .nil

section Reached

variable {d : Nat} {ws : List BufWrite}

theorem mem_reachedWrites {w : BufWrite} :
    w ∈ reachedWrites d ws ↔ ∃ k, ws[k]? = some w ∧ Config.freeReached d k = true := by
  simp [reachedWrites, List.mem_zipIdx_iff_getElem?]

theorem reachedWrites_sublist : (reachedWrites d ws).Sublist ws := by
  have h := (List.filter_sublist (p := fun x => Config.freeReached d x.2) (l := ws.zipIdx)).map Prod.fst
  rwa [List.zipIdx_map_fst] at h

/-- Among distinct writes an address belongs to one index. -/
theorem DistinctWrites.index_eq (hd : DistinctWrites ws) {j k : Nat} {x w : BufWrite} (hj : ws[j]? = some x)
    (hk : ws[k]? = some w) (h : x.1 = w.1) : j = k := by
  have hnodup : (ws.map Prod.fst).Nodup := List.pairwise_map.mpr hd
  have hlt : j < (ws.map Prod.fst).length := by simpa using (List.getElem?_eq_some_iff.mp hj).1
  exact (List.getElem?_inj hlt hnodup).mp (by simp [hj, hk, h])

/-- R118: each byte has its final value or its old contents, by the free value. -/
theorem read_reachedWrites (hd : DistinctWrites ws) (m : Memory) {k : Nat} {w : BufWrite} (hk : ws[k]? = some w) :
    Memory.read (Memory.writeAll m (reachedWrites d ws)) w.1.toNat =
      if Config.freeReached d k then some w.2 else Memory.read m w.1.toNat := by
  split_ifs with hreached
  · exact Memory.read_writeAll_mem m (hd.sublist reachedWrites_sublist) (mem_reachedWrites.mpr ⟨k, hk, hreached⟩)
  · refine Memory.read_writeAll_other m fun x hx he => hreached ?_
    obtain ⟨j, hj, hjreached⟩ := mem_reachedWrites.mp hx
    rwa [hd.index_eq hj hk he] at hjreached

end Reached

/-- What a packet that `RESET` abandons leaves, with no writes of other agents meanwhile. -/
theorem runAbandoned_quiet {p : Packet} {s : State} (h : ∀ w ∈ packetWrites p s, bufAdmits s.cfg w.1 = true) :
    runAbandoned p [] s = .next
      (s.resetBlock.setBuf (Memory.writeAll s.buf (reachedWrites s.draws (packetWrites p s)))).countDraw := by
  simp only [runAbandoned, agentsThatStay, List.filter_nil, List.append_nil]
  exact ifAdmitted_of_admits _ h

/-- Settles O12: the block is reset, and of the packet's distinct writes the reached ones are done. -/
theorem resetAbandonsCommand : Obligations.ResetAbandonsCommand := by
  intro s p rest hc hadm
  have hws : packetWrites p (s.setCmd rest) = packetWrites p s := packetWrites_congr p rfl rfl
  have hrun := runAbandoned_quiet (p := p) (s := s.setCmd rest) (by rwa [hws])
  rw [hws] at hrun
  refine ⟨_, (step_input hc).trans hrun, toList_defaultU s.cfg, toList_defaultR s.cfg, rfl, rfl, rfl,
    fun k w hk => read_reachedWrites (packetWrites_distinct p s) s.buf hk, fun a ha => ?_⟩
  exact Memory.read_writeAll_other s.buf fun w hw => ha w (reachedWrites_sublist.subset hw)

end Sys2Proof.Machine
